-- ==== Sys2Proof/Word.lean ====
section
/-! DEFINITION. The data word of the machine: one byte (R10, R12). -/

namespace Sys2Proof

/-- A byte: 8 bits, bit 0 the least significant, always read as an unsigned number 0 to 255 (R12, R13). -/
abbrev Byte := BitVec 8

end Sys2Proof
end

