-- ==== Sys2Proof/Syntax.lean ====
section
/-! DEFINITION. The instructions: one constructor for each of the 26 rows of the closed catalog (R3, R104).

An arity-1 instruction carries its operand byte `imm8`; what the byte means is the instruction's own (R102). -/

namespace Sys2Proof

/-- The two instruction formats (R100). -/
inductive Format where
  /-- F0: the opcode byte alone. -/
  | f0
  /-- F1: the opcode byte and one operand byte. -/
  | f1
deriving DecidableEq, Repr

/-- The instruction catalog, in the order of its ids 0 to 25 (R104). -/
inductive Instr where
  /-- No operation (R180). -/
  | noop
  /-- Unconditional jump to a Program address (R181). -/
  | jmp (target : Byte)
  /-- Jump to a Program address if B is not zero (R182). -/
  | jnz (target : Byte)
  /-- Set A to a value (R190). -/
  | sta (value : Byte)
  /-- Set B to a value (R191). -/
  | stb (value : Byte)
  /-- Exchange A and B (R192). -/
  | swp
  /-- Store B at an absolute RAM address (R200). -/
  | mvr (address : Byte)
  /-- Load B from an absolute RAM address (R201). -/
  | rdr (address : Byte)
  /-- Store B at the RAM address in A (R202). -/
  | mva
  /-- Load B from the RAM address in A (R203). -/
  | rda
  /-- Store a pixel value at the VRAM address in A (R204). -/
  | mvv (value : Byte)
  /-- Load B from the VRAM address in A (R205). -/
  | rev
  /-- Read INP through a mask into B (R206). -/
  | rdi (mask : Byte)
  /-- B plus A, modulo 256, to B (R230). -/
  | add
  /-- B times A, modulo 256, to B (R231). -/
  | mul
  /-- Remainder of B by A to B; DivisionByZero when A is 0 (R232). -/
  | mod
  /-- Bitwise or of B and A to B (R233). -/
  | or
  /-- Bitwise and of B and A to B (R234). -/
  | and
  /-- Bitwise exclusive or of B and A to B (R235). -/
  | xor
  /-- Bitwise complement of B (R236). -/
  | not
  /-- Shift B left by an amount (R238). -/
  | shl (amount : Byte)
  /-- Shift B right by an amount, logically (R240). -/
  | shr (amount : Byte)
  /-- A plus 1, modulo 256, to A (R242). -/
  | inc
  /-- A minus 1, modulo 256, to A (R243). -/
  | dec
  /-- Fill all of VRAM with a value (R250). -/
  | flv (value : Byte)
  /-- End the frame (R251). -/
  | fsh
deriving DecidableEq, Repr

/-- A row of the decoder's table: an instruction whole, or one that still needs its operand byte (R103, R104). -/
inductive Shape where
  /-- Arity 0. -/
  | bare (i : Instr)
  /-- Arity 1. -/
  | withOperand (build : Byte → Instr)

/-- Why a byte sequence is not an instruction. -/
inductive DecodeError where
  /-- There is no byte to decode. -/
  | noBytes
  /-- The opcode byte is 26 or more (R106). -/
  | unknownOpcode (op : Byte)
  /-- The opcode has arity 1 and no operand byte follows (R153). -/
  | operandMissing (op : Byte)
deriving DecidableEq, Repr

end Sys2Proof
end

