-- ==== Sys2Proof/Config.lean ====
section
/-! DEFINITION. What the machine's specification fixes as a parameter (R10, R11).

The specification names two parameters a model may quantify over, `SHIFT_WIDE` and `RESET_FILL`, and decides a
value for each; a model that fixes them to the decided values is the machine it describes (R11).
`SHIFT_WIDE` stands here. `RESET_FILL` is `Machine.ResetFill` in Machine/State.lean.
No value of this machine is left undefined by the specification, so there is no free value. -/

namespace Sys2Proof

/-- The number of bytes of every address space (R10, R60). -/
def spaceSize : Nat := 256

/-- `SHIFT_WIDE` (R11, R237): what a shift by 8 or more gives. -/
inductive ShiftWide where
  /-- The shift moves every bit out: the result is 0. -/
  | zero
  /-- The amount is taken modulo 8. -/
  | mask3
deriving DecidableEq, Repr

/-- The decided value of `SHIFT_WIDE` (R11, D7). UNVERIFIED against the original program: log 5. -/
def Config.shiftWide : ShiftWide := .zero

end Sys2Proof
end

