-- ==== Sys2Proof/WellFormed.lean ====
section
/-! DEFINITION. Well-formedness of what the machine is given.

An instruction has nothing to check: every operand byte is legal for every arity-1 instruction (R107), and the
type of an operand is exactly a byte. What can be ill formed is a program image, which is exactly 256 bytes (R109),
and a space-select code, of which code 3 is reserved (R65). -/

namespace Sys2Proof

/-- A program image is exactly 256 bytes; nothing else about it is checked (R109, R321). -/
def imageWf (image : List Byte) : Bool := image.length == spaceSize

/-- The space-select codes in use: 0, 1 and 2; code 3 is reserved (R65). -/
def spaceCodeWf (code : BitVec 2) : Bool := code != 3#2

end Sys2Proof
end

