-- ==== Sys2Proof/Decode.lean ====
section
/-! DEFINITION. The decoder, total on any bytes and rejecting by name (R100 to R106), and after it the encoder,
both written from the opcode map (R104). -/

namespace Sys2Proof

/-- The opcode map (R104): the bounds-checked mapping from an opcode number to a catalog row (R105).
Numbers of 26 and more have no row (R106).
UNVERIFIED: the ids other than 2, 3, 4, 13 and 25 are the specification's decision D1 (log 3). -/
def catalog : Nat → Option Shape
  | 0 => some (.bare .noop)
  | 1 => some (.withOperand .jmp)
  | 2 => some (.withOperand .jnz)
  | 3 => some (.withOperand .sta)
  | 4 => some (.withOperand .stb)
  | 5 => some (.bare .swp)
  | 6 => some (.withOperand .mvr)
  | 7 => some (.withOperand .rdr)
  | 8 => some (.bare .mva)
  | 9 => some (.bare .rda)
  | 10 => some (.withOperand .mvv)
  | 11 => some (.bare .rev)
  | 12 => some (.withOperand .rdi)
  | 13 => some (.bare .add)
  | 14 => some (.bare .mul)
  | 15 => some (.bare .mod)
  | 16 => some (.bare .or)
  | 17 => some (.bare .and)
  | 18 => some (.bare .xor)
  | 19 => some (.bare .not)
  | 20 => some (.withOperand .shl)
  | 21 => some (.withOperand .shr)
  | 22 => some (.bare .inc)
  | 23 => some (.bare .dec)
  | 24 => some (.withOperand .flv)
  | 25 => some (.bare .fsh)
  | _ => none

/-- Decode an opcode byte: the whole byte, read as an unsigned number, is the id (R101, R105). -/
def decodeOpcode (op : Byte) : Option Shape := catalog op.toNat

/-- The number of operand bytes a catalog row needs (R103). -/
def Shape.arity : Shape → Nat
  | .bare _ => 0
  | .withOperand _ => 1

/-- Decode the instruction at the head of a byte sequence and return it with the bytes after it.
The opcode byte comes first and its operand byte, if any, next (R100, R71); the operand is used as it stands (R102). -/
def decode : List Byte → Except DecodeError (Instr × List Byte)
  | [] => .error .noBytes
  | op :: rest =>
    match decodeOpcode op with
    | none => .error (.unknownOpcode op)
    | some (.bare i) => .ok (i, rest)
    | some (.withOperand build) =>
      match rest with
      | [] => .error (.operandMissing op)
      | operand :: after => .ok (build operand, after)

/-- Decode a byte sequence from its start to its end, instruction after instruction (R109: sequential decoding).
The number is a bound on the count of instructions; the length of the sequence is enough. -/
def decodeSequence : Nat → List Byte → Except DecodeError (List Instr)
  | _, [] => .ok []
  | 0, _ :: _ => .error .noBytes
  | bound + 1, bytes@(_ :: _) =>
    match decode bytes with
    | .error e => .error e
    | .ok (i, after) =>
      match decodeSequence bound after with
      | .error e => .error e
      | .ok is => .ok (i :: is)

/-- The opcode byte of an instruction: its id (R101, R104). -/
def Instr.opcode : Instr → Byte
  | .noop => 0x00
  | .jmp _ => 0x01
  | .jnz _ => 0x02
  | .sta _ => 0x03
  | .stb _ => 0x04
  | .swp => 0x05
  | .mvr _ => 0x06
  | .rdr _ => 0x07
  | .mva => 0x08
  | .rda => 0x09
  | .mvv _ => 0x0A
  | .rev => 0x0B
  | .rdi _ => 0x0C
  | .add => 0x0D
  | .mul => 0x0E
  | .mod => 0x0F
  | .or => 0x10
  | .and => 0x11
  | .xor => 0x12
  | .not => 0x13
  | .shl _ => 0x14
  | .shr _ => 0x15
  | .inc => 0x16
  | .dec => 0x17
  | .flv _ => 0x18
  | .fsh => 0x19

/-- The operand byte of an instruction, if its arity is 1 (R102). -/
def Instr.operand? : Instr → Option Byte
  | .jmp v | .jnz v | .sta v | .stb v | .mvr v | .rdr v | .mvv v | .rdi v | .shl v | .shr v | .flv v => some v
  | .noop | .swp | .mva | .rda | .rev | .add | .mul | .mod | .or | .and | .xor | .not | .inc | .dec | .fsh => none

/-- The format of an instruction (R100, R104). -/
def Instr.format (i : Instr) : Format :=
  match i.operand? with
  | none => .f0
  | some _ => .f1

/-- The arity of an instruction: its number of operand bytes (R18, R104). -/
def Instr.arity (i : Instr) : Nat :=
  match i.format with
  | .f0 => 0
  | .f1 => 1

/-- The length of an instruction in bytes: 1 + arity (R103). -/
def Instr.length (i : Instr) : Nat := 1 + i.arity

/-- The bytes of an instruction: its opcode byte followed inline by its operand byte, if any (R100). -/
def encode (i : Instr) : List Byte := i.opcode :: i.operand?.toList

/-- The bytes of a sequence of instructions, densely one after another (R100). -/
def encodeAll (is : List Instr) : List Byte := is.flatMap encode

/-- The instruction's bytes from a word numbered as the opcode table numbers it: the first byte in bits 7 to 0, the
second in bits 15 to 8, and every bit from `nbits` up taken as 0. -/
def tableWordBytes (nbits w : Nat) : List Byte :=
  let v := w % 2 ^ nbits
  [BitVec.ofNat 8 v, BitVec.ofNat 8 (v / 256)]

/-- The instruction the decoder reads from a word of the opcode table. -/
def decodeTableWord (nbits w : Nat) : Option Instr :=
  match decode (tableWordBytes nbits w) with
  | .ok (i, _) => some i
  | .error _ => none

end Sys2Proof
end

