-- ==== Sys2Proof/Machine/State.lean ====
section
/-! DEFINITION. The state of the machine as plain data, its reset, and the reasons a step can stop (10_state.md). -/

namespace Sys2Proof.Machine

/-- The contents of one 256-byte address space (R38, R60) as address and byte pairs.
The canonical form (`Memory.wf`, Machine/Ops.lean): addresses strictly rising, below 256, and no pair whose byte is
`unlistedByte`. -/
abbrev Memory := List Host.Cell

/-- What an address that no pair lists reads as: 0x00, the reset content of RAM and VRAM (R350) and the power-up content
of PROG (R351). UNVERIFIED against the original program (D2, D21): log 4. -/
def unlistedByte : Byte := 0x00

/-- The three address spaces (R60). -/
inductive Space where
  | prog
  | ram
  | vram
deriving DecidableEq, Repr

/-- The architectural state, complete (10_state.md, head and section 8; R30 to R44). -/
structure State where
  /-- A, general register and address register (R31). -/
  a : Byte
  /-- B, accumulator (R32). -/
  b : Byte
  /-- IP, address of the next opcode (R34). -/
  ip : Byte
  /-- INP, input bitmask written by the host only (R36, R37). -/
  inp : Byte
  /-- The Program space (R62). -/
  prog : Memory
  /-- The RAM space (R63). -/
  ram : Memory
  /-- The VRAM space, the frame buffer (R64). -/
  vram : Memory
  /-- HALT: a halting outcome has been reported since reset (R40). -/
  halt : Bool
  /-- OUTC: the code of the most recent step's outcome (R41). -/
  outc : BitVec 3
  /-- OUTP: the payload of the most recent outcome (R42). -/
  outp : Byte
deriving DecidableEq, Repr

/-- The reasons a step can stop the machine with a fault: NONE.
The machine has no trap that stops it outside its own state: every exceptional condition is a step outcome that the block
records in OUTC, OUTP and HALT (R300, R309, R316), and every address exists (R61), so a step always answers a next state.
DESIGN CHOICE: log 1. -/
inductive Fault where
deriving DecidableEq, Repr

/-- The requests that have no meaning. No instruction and no step raises one: they answer malformed requests made to the
multiplexer and to the host port. Each is safe: the model stops where the specification gives no behaviour. -/
inductive Refusal where
  /-- An instruction without a meaning, raised by its arm of `exec` (none is left). Safe. -/
  | notModelled (mnemonic : String)
  /-- The multiplexer was given the reserved space-select code 3 (R65: "never produced; a model refuses it"). Safe. -/
  | reservedSpaceCode
  /-- The multiplexer was asked for an access its port does not make (R65). DESIGN CHOICE, log 12. Safe. -/
  | noRoute
  /-- LOAD was given an image that is not 256 bytes (R109, R321). DESIGN CHOICE, log 15. Safe. -/
  | malformedImage
  /-- A host transaction was issued during a RUN (R328: "has no meaning in this spec; a model gives it no move"; I15). Safe. -/
  | transactionInProgress
deriving DecidableEq, Repr

/-- `RESET_FILL` (R11): the contents of A, B, INP, RAM and VRAM after reset. -/
structure ResetFill where
  a : Byte
  b : Byte
  inp : Byte
  ram : Memory
  vram : Memory
deriving DecidableEq, Repr

/-- The decided value of `RESET_FILL`: 0x00 everywhere (R11, R350, D2). UNVERIFIED against the original program: log 4. -/
def ResetFill.decided : ResetFill := { a := 0x00, b := 0x00, inp := 0x00, ram := [], vram := [] }

/-- The state that RESET leaves, for the contents drawn for the parameter and the Program space it leaves alone (R350). -/
def State.afterReset (fill : ResetFill) (prog : Memory) : State :=
  { a := fill.a, b := fill.b, ip := 0x00, inp := fill.inp, prog := prog, ram := fill.ram, vram := fill.vram,
    halt := false, outc := 0, outp := 0x00 }

/-- The machine right after power-up: R350 with PROG all 0x00 (R351). -/
def State.reset : State := State.afterReset ResetFill.decided []

end Sys2Proof.Machine
end

