-- ==== Sys2Proof/Machine/Outcome.lean ====
section
/-! DEFINITION. The step outcomes and the step-outcome encoder (60_exceptions.md, sections 1 and 2). -/

namespace Sys2Proof.Machine

/-- The eight outcomes of a step (R300). -/
inductive StepOutcome where
  /-- The normal result (R302). -/
  | continue_
  /-- A MemCopy whose source range passes 255; no step reports it (R301). -/
  | readOutOfBounds
  /-- A MemCopy whose destination range passes 255; no step reports it (R301). -/
  | writeOutOfBounds
  /-- The instruction executed and its advance would pass 255 (R303). -/
  | endOfProgram
  /-- The operand byte would lie past 255 (R304). -/
  | argOutOfBounds
  /-- The opcode byte is 26 or more (R305). -/
  | unknownOp (op : Byte)
  /-- The end of a frame (R306). -/
  | flush
  /-- mod with A = 0 (R307). -/
  | divisionByZero
deriving DecidableEq, Repr

/-- The outcome's code, written to OUTC (R310). -/
def StepOutcome.code : StepOutcome → BitVec 3
  | .continue_ => 0
  | .readOutOfBounds => 1
  | .writeOutOfBounds => 2
  | .endOfProgram => 3
  | .argOutOfBounds => 4
  | .unknownOp _ => 5
  | .flush => 6
  | .divisionByZero => 7

/-- The outcome's payload, written to OUTP: the opcode byte for UnknownOp, else 0x00 (R310, R42). -/
def StepOutcome.payload : StepOutcome → Byte
  | .unknownOp op => op
  | .continue_ | .readOutOfBounds | .writeOutOfBounds | .endOfProgram | .argOutOfBounds | .flush | .divisionByZero => 0x00

/-- The halting outcomes: all but Continue and Flush (R311). -/
def StepOutcome.halting : StepOutcome → Bool
  | .continue_ | .flush => false
  | .readOutOfBounds | .writeOutOfBounds | .endOfProgram | .argOutOfBounds | .unknownOp _ | .divisionByZero => true

/-- The outcome that a code and a payload stand for (R310: every 3-bit code is used). -/
def StepOutcome.ofCode (code : BitVec 3) (payload : Byte) : StepOutcome :=
  match code.toNat with
  | 0 => .continue_
  | 1 => .readOutOfBounds
  | 2 => .writeOutOfBounds
  | 3 => .endOfProgram
  | 4 => .argOutOfBounds
  | 5 => .unknownOp payload
  | 6 => .flush
  | _ => .divisionByZero

/-- The outcome latched in OUTC and OUTP (R41, R42, R312). -/
def State.outcome (s : State) : StepOutcome := StepOutcome.ofCode s.outc s.outp

end Sys2Proof.Machine
end

