-- ==== Sys2Proof/Machine/Ops.lean ====
section
/-! DEFINITION. The shared operations: one memory, the three spaces, and the ends of a step (20_memory.md section 3;
40_execution.md; 60_exceptions.md section 2).

Taking an exception is `raise` (R16, R309): the machine has no trap entry, an outcome only ends the step and is
recorded (R316). There is no return from an exception; the way on from a halting outcome is `resetBlock` (R317). -/

namespace Sys2Proof.Machine

/-- The three outcomes of the host's interface, at this machine's types. -/
abbrev Answer := Host.Outcome State Fault Refusal

/-- The low 8 bits of a number: `v mod 256`, `trunc8(v)` (R13). -/
def trunc8 (v : Nat) : Byte := BitVec.ofNat 8 v

/-- `v[hi:lo]`: bits hi down to lo, inclusive, as an unsigned number (R13). -/
def bits (hi lo : Nat) (v : Byte) : Nat := v.toNat / 2 ^ lo % 2 ^ (hi + 1 - lo)

/-! ## One memory -/

/-- The byte at an index (R66). -/
def Memory.read : Memory → Nat → Byte
  | [], _ => unlistedByte
  | (k, v) :: rest, i => if k = i then v else Memory.read rest i

/-- Store a byte at an index and change nothing else (R67), keeping the canonical form: storing `unlistedByte` removes the
pair. -/
def Memory.write : Memory → Nat → Byte → Memory
  | [], i, v => if v = unlistedByte then [] else [(i, v)]
  | (k, w) :: rest, i, v =>
    if i < k then if v = unlistedByte then (k, w) :: rest else (i, v) :: (k, w) :: rest
    else if i = k then if v = unlistedByte then rest else (i, v) :: rest
    else (k, w) :: Memory.write rest i v

/-- The pairs that list one byte at every index from `i` on, `n` of them. -/
def Memory.run (v : Byte) : Nat → Nat → Memory
  | 0, _ => []
  | n + 1, i => (i, v) :: Memory.run v n (i + 1)

/-- A memory that holds one byte at all 256 indices (R68). -/
def Memory.fill (v : Byte) : Memory := if v = unlistedByte then [] else Memory.run v spaceSize 0

/-- The canonical form from an index on: strictly rising indices in range, and no pair with the unlisted byte. -/
def Memory.wfFrom : Nat → Memory → Bool
  | _, [] => true
  | lo, (k, v) :: rest => decide (lo ≤ k) && decide (k < spaceSize) && (v != unlistedByte) && Memory.wfFrom (k + 1) rest

/-- The canonical form of a memory. -/
def Memory.wf (m : Memory) : Bool := Memory.wfFrom 0 m

/-- The bytes at `n` indices from `i` on. -/
def Memory.readRange (m : Memory) : Nat → Nat → List Byte
  | 0, _ => []
  | n + 1, i => m.read i :: Memory.readRange m n (i + 1)

/-- Store a byte sequence from an index on, in rising order. -/
def Memory.writeRange : Memory → Nat → List Byte → Memory
  | m, _, [] => m
  | m, i, v :: rest => Memory.writeRange (m.write i v) (i + 1) rest

/-- All 256 bytes of a memory. -/
def Memory.bytes (m : Memory) : List Byte := m.readRange spaceSize 0

/-- The helper `MemCopy` (R69), which no instruction uses: the source range is checked first, then the destination range, a
count of 0 copies nothing, and the copy goes through a temporary. UNVERIFIED (D13), counts above 256 DESIGN CHOICE: log 13. -/
def Memory.copy (m : Memory) (source dest : Byte) (num : Nat) : Except StepOutcome Memory :=
  if 1 ≤ num ∧ source.toNat + num - 1 > 255 then .error .readOutOfBounds
  else if 1 ≤ num ∧ dest.toNat + num - 1 > 255 then .error .writeOutOfBounds
  else .ok (m.writeRange dest.toNat (m.readRange num source.toNat))

/-! ## The three spaces -/

/-- The memory of a space. -/
def State.space (s : State) : Space → Memory
  | .prog => s.prog
  | .ram => s.ram
  | .vram => s.vram

/-- Replace the memory of a space; the other two are independent (R60). -/
def State.setSpace (s : State) (sp : Space) (m : Memory) : State :=
  match sp with
  | .prog => { s with prog := m }
  | .ram => { s with ram := m }
  | .vram => { s with vram := m }

/-- `MemRead(S, addr, 1)` (R66). -/
def memRead (sp : Space) (addr : Byte) (s : State) : Byte := (s.space sp).read addr.toNat

/-- `MemWrite(S, addr, 1, v)` (R67). -/
def memWrite (sp : Space) (addr v : Byte) (s : State) : State := s.setSpace sp ((s.space sp).write addr.toNat v)

/-- `MemFill(S, v)` (R68). -/
def memFill (sp : Space) (v : Byte) (s : State) : State := s.setSpace sp (Memory.fill v)

/-! ## The registers -/

/-- `A <- v`. -/
def State.setA (s : State) (v : Byte) : State := { s with a := v }

/-- `B <- v`. -/
def State.setB (s : State) (v : Byte) : State := { s with b := v }

/-- `IP <- v`. -/
def State.setIp (s : State) (v : Byte) : State := { s with ip := v }

/-! ## The ends of a step -/

/-- The step-outcome encoder (R309): the bookkeeping at the end of every step that runs, for a raised outcome as for a
finished one: OUTC, OUTP, and HALT set by a halting outcome. UNVERIFIED (D4, D5, D28): log 6. -/
def State.record (s : State) (o : StepOutcome) : State :=
  { s with outc := o.code, outp := o.payload, halt := s.halt || o.halting }

/-- `raise o` (R16, R309): end the step at once; the only writes are the encoder's. -/
def raise (o : StepOutcome) (s : State) : Answer := .next (s.record o)

/-- Stage C (R153): the operand bytes of an instruction of this arity at IP lie inside the image. No wrap-around. -/
def operandInBounds (arity : Nat) (s : State) : Bool := decide (s.ip.toNat + arity ≤ 255)

/-- Stages A and R (R157 to R159): advance IP past an instruction of this arity and report, or end with EndOfProgram and
IP unchanged when the advance would pass 255. UNVERIFIED (D8): log 7. -/
def State.advance (s : State) (arity : Nat) (report : StepOutcome) : State :=
  let next := s.ip.toNat + 1 + arity
  if next ≤ 255 then (s.setIp (trunc8 next)).record report else s.record .endOfProgram

/-- Stage J (R156): a taken transfer sets IP and ends with Continue; it makes no EndOfProgram check. -/
def State.transfer (s : State) (target : Byte) : State := (s.setIp target).record .continue_

/-- The step of an instruction of this arity after its decoding (R160): the bounds check, the effect, the advance.
The effect is a function of the state at the start of the step, so every operand is the snapshot's (R152).
DEDUCED: the bounds check is made here too, so that the meaning alone answers what its rule says at IP = 255 (log 8). -/
def runSequential (arity : Nat) (report : StepOutcome) (effect : State → State) (s : State) : Answer :=
  if operandInBounds arity s then .next ((effect s).advance arity report) else raise .argOutOfBounds s

/-- The step of a taken jmp or jnz after its decoding (R156, R160). -/
def runTransfer (target : Byte) (s : State) : Answer :=
  if operandInBounds 1 s then .next (s.transfer target) else raise .argOutOfBounds s

/-- RESET (R350, R353): every field at its reset value, PROG unchanged. The only way on from a halting outcome (R317). -/
def resetBlock (s : State) : State := State.afterReset ResetFill.decided s.prog

end Sys2Proof.Machine
end

