-- ==== Sys2Proof/Machine/AluOps.lean ====
section
/-! DEFINITION. The functions of the unsigned 8-bit ALU (44_alu.md). Arithmetic is on natural numbers and is narrowed to
8 bits at the end (R220); it is silent on overflow and sets no flag (R221). -/

namespace Sys2Proof.Machine

/-- add (R230). -/
def aluAdd (b a : Byte) : Byte := trunc8 (b.toNat + a.toNat)

/-- mul: the low 8 bits of the product (R231). -/
def aluMul (b a : Byte) : Byte := trunc8 (b.toNat * a.toNat)

/-- mod: the unsigned remainder, for a divisor that is not 0 (R223, R232). -/
def aluMod (b a : Byte) : Byte := trunc8 (b.toNat % a.toNat)

/-- or (R233). -/
def aluOr (b a : Byte) : Byte := b ||| a

/-- and (R234). -/
def aluAnd (b a : Byte) : Byte := b &&& a

/-- xor (R235). -/
def aluXor (b a : Byte) : Byte := b ^^^ a

/-- not: `255 - b` (R236). -/
def aluNot (b : Byte) : Byte := trunc8 (255 - b.toNat)

/-- The shift amount that counts, under a value of `SHIFT_WIDE` (R237). UNVERIFIED (D7): log 5. -/
def shiftAmount : ShiftWide → Byte → Nat
  | .zero, n => n.toNat
  | .mask3, n => if 8 ≤ n.toNat then n.toNat % 8 else n.toNat

/-- `v << n = (v * 2^n) mod 256` (R237), under a value of `SHIFT_WIDE`. -/
def shiftLeftUnder (wide : ShiftWide) (v n : Byte) : Byte := trunc8 (v.toNat * 2 ^ shiftAmount wide n)

/-- `v >> n = floor(v / 2^n)` (R237), under a value of `SHIFT_WIDE`. -/
def shiftRightUnder (wide : ShiftWide) (v n : Byte) : Byte := trunc8 (v.toNat / 2 ^ shiftAmount wide n)

/-- shl (R238). -/
def aluShl (v n : Byte) : Byte := shiftLeftUnder Config.shiftWide v n

/-- shr (R240). -/
def aluShr (v n : Byte) : Byte := shiftRightUnder Config.shiftWide v n

/-- inc (R242). -/
def aluInc (a : Byte) : Byte := trunc8 (a.toNat + 1)

/-- dec: `(a + 255) mod 256` (R243). -/
def aluDec (a : Byte) : Byte := trunc8 (a.toNat + 255)

end Sys2Proof.Machine
end

