-- ==== Sys2Proof/Machine/Alu.lean ====
section
/-! DEFINITION. The ALU instructions add, mul, mod, or, and, xor, not, shl, shr, inc and dec (44_alu.md section 2). -/

namespace Sys2Proof.Machine

/-- The shape of a binary ALU instruction: read B and A, write B (R222). -/
def State.binaryAlu (f : Byte → Byte → Byte) (s : State) : State := s.setB (f s.b s.a)

/-- add (R230). -/
def execAdd (s : State) : Answer := runSequential 0 .continue_ (State.binaryAlu aluAdd) s

/-- mul (R231). -/
def execMul (s : State) : Answer := runSequential 0 .continue_ (State.binaryAlu aluMul) s

/-- mod (R232): with A = 0 DivisionByZero is raised in stage E, before any write and before the advance, at any IP.
UNVERIFIED against the original program (D6): log 7. -/
def execMod (s : State) : Answer :=
  if s.a = 0x00 then raise .divisionByZero s else runSequential 0 .continue_ (State.binaryAlu aluMod) s

/-- or (R233). -/
def execOr (s : State) : Answer := runSequential 0 .continue_ (State.binaryAlu aluOr) s

/-- and (R234). -/
def execAnd (s : State) : Answer := runSequential 0 .continue_ (State.binaryAlu aluAnd) s

/-- xor (R235). -/
def execXor (s : State) : Answer := runSequential 0 .continue_ (State.binaryAlu aluXor) s

/-- not (R236): A is not read. -/
def execNot (s : State) : Answer := runSequential 0 .continue_ (fun s => s.setB (aluNot s.b)) s

/-- shl (R238). -/
def execShl (amount : Byte) (s : State) : Answer := runSequential 1 .continue_ (fun s => s.setB (aluShl s.b amount)) s

/-- shr (R240). -/
def execShr (amount : Byte) (s : State) : Answer := runSequential 1 .continue_ (fun s => s.setB (aluShr s.b amount)) s

/-- inc (R242). -/
def execInc (s : State) : Answer := runSequential 0 .continue_ (fun s => s.setA (aluInc s.a)) s

/-- dec (R243). -/
def execDec (s : State) : Answer := runSequential 0 .continue_ (fun s => s.setA (aluDec s.a)) s

end Sys2Proof.Machine
end

