-- ==== Sys2Proof/Machine/Flags.lean ====
section
/-! DEFINITION. The machine has no flags, condition codes or predicates (R39), so no instruction computes one.
The one condition it tests is the value of B, by jnz. -/

namespace Sys2Proof.Machine

/-- The condition of jnz: B is not 0 (R182); every value 1 to 255 takes the jump. -/
def bNonZero (s : State) : Bool := s.b != 0x00

end Sys2Proof.Machine
end

