-- ==== Sys2Proof/Machine/Control.lean ====
section
/-! DEFINITION. The control instructions noop, jmp and jnz (41_control.md). -/

namespace Sys2Proof.Machine

/-- noop (R180). -/
def execNoop (s : State) : Answer := runSequential 0 .continue_ id s

/-- jmp (R181). -/
def execJmp (target : Byte) (s : State) : Answer := runTransfer target s

/-- jnz (R182): the test reads B as it was at the start of the step; not taken, the step advances. -/
def execJnz (target : Byte) (s : State) : Answer :=
  if bNonZero s then runTransfer target s else runSequential 1 .continue_ id s

end Sys2Proof.Machine
end

