-- ==== Sys2Proof/Machine/Frame.lean ====
section
/-! DEFINITION. The frame instructions flv and fsh (45_frame.md). -/

namespace Sys2Proof.Machine

/-- flv (R250): every one of the 256 VRAM bytes takes the operand. -/
def execFlv (value : Byte) (s : State) : Answer := runSequential 1 .continue_ (memFill .vram value) s

/-- fsh (R251): nothing in stage E; stage R reports Flush after IP has advanced (R159). -/
def execFsh (s : State) : Answer := runSequential 0 .flush id s

end Sys2Proof.Machine
end

