-- ==== Sys2Proof/Machine/Operands.lean ====
section
/-! DEFINITION. The operand forms: where an instruction takes a value from and where it puts one (R207, R102). -/

namespace Sys2Proof.Machine

/-- The places a value comes from. -/
inductive Source where
  /-- The register A. -/
  | regA
  /-- The register B. -/
  | regB
  /-- The input register INP (read by rdi only, R33). -/
  | inp
  /-- The operand byte itself (R102). -/
  | immediate (v : Byte)
  /-- RAM at the address in the operand byte: the absolute mode (R207). -/
  | ramAbsolute (address : Byte)
  /-- RAM at the address in A: the register-indirect mode (R207). -/
  | ramIndirect
  /-- VRAM at the address in A: the register-indirect mode (R207). -/
  | vramIndirect
deriving DecidableEq, Repr

/-- The places a value goes to. -/
inductive Target where
  /-- The register A. -/
  | regA
  /-- The register B. -/
  | regB
  /-- RAM at the address in the operand byte (R207). -/
  | ramAbsolute (address : Byte)
  /-- RAM at the address in A (R207). -/
  | ramIndirect
  /-- VRAM at the address in A (R207). -/
  | vramIndirect
deriving DecidableEq, Repr

/-- The value of a source. No mode changes the state, adds an offset or extends the byte (R207). -/
def Source.value (s : State) : Source → Byte
  | .regA => s.a
  | .regB => s.b
  | .inp => s.inp
  | .immediate v => v
  | .ramAbsolute address => memRead .ram address s
  | .ramIndirect => memRead .ram s.a s
  | .vramIndirect => memRead .vram s.a s

/-- The byte of memory a target stores to, if it is one (R70). -/
def Target.storedAt (s : State) : Target → Option (Space × Byte)
  | .regA => none
  | .regB => none
  | .ramAbsolute address => some (.ram, address)
  | .ramIndirect => some (.ram, s.a)
  | .vramIndirect => some (.vram, s.a)

/-- Put a value into a target. No mode modifies the address register (R207). -/
def Target.put (v : Byte) (s : State) : Target → State
  | .regA => s.setA v
  | .regB => s.setB v
  | .ramAbsolute address => memWrite .ram address v s
  | .ramIndirect => memWrite .ram s.a v s
  | .vramIndirect => memWrite .vram s.a v s

/-- Move a value from a source to a target: the stage-E effect of the move instructions. -/
def move (source : Source) (target : Target) (s : State) : State := target.put (source.value s) s

end Sys2Proof.Machine
end

