-- ==== Sys2Proof/Machine/MemoryIo.lean ====
section
/-! DEFINITION. The memory and input instructions mvr, rdr, mva, rda, mvv, rev and rdi (43_memory_io.md). -/

namespace Sys2Proof.Machine

/-- mvr (R200): RAM at the operand takes B. -/
def execMvr (address : Byte) (s : State) : Answer := runSequential 1 .continue_ (move .regB (.ramAbsolute address)) s

/-- rdr (R201): B takes RAM at the operand. -/
def execRdr (address : Byte) (s : State) : Answer := runSequential 1 .continue_ (move (.ramAbsolute address) .regB) s

/-- mva (R202): RAM at A takes B. -/
def execMva (s : State) : Answer := runSequential 0 .continue_ (move .regB .ramIndirect) s

/-- rda (R203): B takes RAM at A. -/
def execRda (s : State) : Answer := runSequential 0 .continue_ (move .ramIndirect .regB) s

/-- mvv (R204): VRAM at A takes the operand. -/
def execMvv (value : Byte) (s : State) : Answer := runSequential 1 .continue_ (move (.immediate value) .vramIndirect) s

/-- rev (R205): B takes VRAM at A. -/
def execRev (s : State) : Answer := runSequential 0 .continue_ (move .vramIndirect .regB) s

/-- rdi (R206): B takes INP under the operand's mask; INP is not changed. -/
def execRdi (mask : Byte) (s : State) : Answer :=
  runSequential 1 .continue_ (fun s => s.setB (Source.inp.value s &&& mask)) s

end Sys2Proof.Machine
end

