-- ==== Sys2Proof/Machine/Register.lean ====
section
/-! DEFINITION. The register instructions sta, stb and swp (42_register.md). -/

namespace Sys2Proof.Machine

/-- sta (R190). -/
def execSta (value : Byte) (s : State) : Answer := runSequential 1 .continue_ (move (.immediate value) .regA) s

/-- stb (R191). -/
def execStb (value : Byte) (s : State) : Answer := runSequential 1 .continue_ (move (.immediate value) .regB) s

/-- The exchange of A and B, both from the snapshot (R192, R152). -/
def State.swapAB (s : State) : State := (s.setA s.b).setB s.a

/-- swp (R192). -/
def execSwp (s : State) : Answer := runSequential 0 .continue_ State.swapAB s

end Sys2Proof.Machine
end

