-- ==== Sys2Proof/Machine/Dispatch.lean ====
section
/-! DEFINITION. One arm for each instruction: what a step does once the instruction is decoded (R155, R160).
Whether the block is halted is asked by the step, not here (R160, first line). -/

namespace Sys2Proof.Machine

def exec (i : Instr) (s : State) : Host.Outcome State Fault Refusal :=
  match i with
  -- control
  | .noop => Sys2Proof.Machine.execNoop s
  | .jmp target => Sys2Proof.Machine.execJmp target s
  | .jnz target => Sys2Proof.Machine.execJnz target s
  -- registers
  | .sta value => Sys2Proof.Machine.execSta value s
  | .stb value => Sys2Proof.Machine.execStb value s
  | .swp => Sys2Proof.Machine.execSwp s
  -- memory and input
  | .mvr address => Sys2Proof.Machine.execMvr address s
  | .rdr address => Sys2Proof.Machine.execRdr address s
  | .mva => Sys2Proof.Machine.execMva s
  | .rda => Sys2Proof.Machine.execRda s
  | .mvv value => Sys2Proof.Machine.execMvv value s
  | .rev => Sys2Proof.Machine.execRev s
  | .rdi mask => Sys2Proof.Machine.execRdi mask s
  -- ALU
  | .add => Sys2Proof.Machine.execAdd s
  | .mul => Sys2Proof.Machine.execMul s
  | .mod => Sys2Proof.Machine.execMod s
  | .or => Sys2Proof.Machine.execOr s
  | .and => Sys2Proof.Machine.execAnd s
  | .xor => Sys2Proof.Machine.execXor s
  | .not => Sys2Proof.Machine.execNot s
  | .shl amount => Sys2Proof.Machine.execShl amount s
  | .shr amount => Sys2Proof.Machine.execShr amount s
  | .inc => Sys2Proof.Machine.execInc s
  | .dec => Sys2Proof.Machine.execDec s
  -- frame
  | .flv value => Sys2Proof.Machine.execFlv value s
  | .fsh => Sys2Proof.Machine.execFsh s

end Sys2Proof.Machine
end

