-- ==== Sys2Proof/Machine/Fetch.lean ====
section
/-! DEFINITION. The stages of a step before execution: fetch and decode, operand bounds check, operand fetch
(R151, R153, R154), and the placing of an instruction where the next step fetches it. -/

namespace Sys2Proof.Machine

/-- What the stages before execution give. -/
inductive Fetched where
  /-- The step ends with an outcome and executes nothing. -/
  | raised (o : StepOutcome)
  /-- The instruction to execute. -/
  | instruction (i : Instr)
deriving DecidableEq, Repr

/-- Stages F, C and O (R151, R153, R154), in the order of R160: an unknown opcode is reported before the bounds check,
and the operand byte is read only when the check has passed. -/
def fetchDecode (s : State) : Fetched :=
  let op := memRead .prog s.ip s
  match decodeOpcode op with
  | none => .raised (.unknownOp op)
  | some (.bare i) => .instruction i
  | some (.withOperand build) =>
    if operandInBounds 1 s then .instruction (build (memRead .prog (trunc8 (s.ip.toNat + 1)) s))
    else .raised .argOutOfBounds

/-- The bytes of the image from IP on, as far as an instruction can reach: the byte at IP, and the byte at IP + 1 unless
IP is 255 (R100, R153). -/
def fetchWindow (s : State) : List Byte :=
  memRead .prog s.ip s :: (if operandInBounds 1 s then [memRead .prog (trunc8 (s.ip.toNat + 1)) s] else [])

/-- A step requested while HALT = 1: no state changes (R312). UNVERIFIED (D5): log 2. -/
def haltedStep (s : State) : Answer := .next s

/-- The bytes stored in PROG at IP and, unless IP is 255, at IP + 1, and the block not halted. DESIGN CHOICE: log 10. -/
def placeAtFetch (bytes : List Byte) (s : State) : State :=
  let room := if operandInBounds 1 s then 2 else 1
  { s with prog := s.prog.writeRange s.ip.toNat (bytes.take room), halt := false }

end Sys2Proof.Machine
end

