-- ==== Sys2Proof/Machine/Step.lean ====
section
/-! DEFINITION. The step (R160), which is the STEP transaction (R323). -/

namespace Sys2Proof.Machine

/-- One step (R160): latched while halted (R312), else fetch, decode, check, execute, advance, report. -/
def step (s : State) : Host.Outcome State Fault Refusal :=
  if s.halt then haltedStep s
  else
    match fetchDecode s with
    | .raised o => raise o s
    | .instruction i => exec i s

/-- The state with an instruction of the opcode table placed where the next step fetches (log 10). -/
def State.withFetchWord (s : State) (nbits w : Nat) : State := placeAtFetch (tableWordBytes nbits w) s

end Sys2Proof.Machine
end

