-- ==== Sys2Proof/Machine/Assembler.lean ====
section
/-! DEFINITION. The assembler: from source text to a 256-byte program image or an error (30_encoding.md section 6).

It is software around the block, not hardware (R8); no other definition of the machine uses it. Text is a list of
characters. What the rules R120 to R132 leave open is in log 16. -/

namespace Sys2Proof.Machine

/-- The assembly errors, complete (R129). -/
inductive AsmError where
  | unknownMnemonic
  | arityMismatch
  | invalidOperandLiteral
  | duplicateLabel
  | unknownLabel
  | programOverflow
deriving DecidableEq, Repr

/-- The label marker: the apostrophe, U+0027 (R122). -/
def labelMarker : Char := Char.ofNat 39

/-! ## The catalog by mnemonic -/

/-- The lower-case mnemonic of an instruction (R104). -/
def mnemonicOf : Instr → List Char
  | .noop => "noop".toList
  | .jmp _ => "jmp".toList
  | .jnz _ => "jnz".toList
  | .sta _ => "sta".toList
  | .stb _ => "stb".toList
  | .swp => "swp".toList
  | .mvr _ => "mvr".toList
  | .rdr _ => "rdr".toList
  | .mva => "mva".toList
  | .rda => "rda".toList
  | .mvv _ => "mvv".toList
  | .rev => "rev".toList
  | .rdi _ => "rdi".toList
  | .add => "add".toList
  | .mul => "mul".toList
  | .mod => "mod".toList
  | .or => "or".toList
  | .and => "and".toList
  | .xor => "xor".toList
  | .not => "not".toList
  | .shl _ => "shl".toList
  | .shr _ => "shr".toList
  | .inc => "inc".toList
  | .dec => "dec".toList
  | .flv _ => "flv".toList
  | .fsh => "fsh".toList

/-- A catalog row's instruction, with a zero operand where it needs one. -/
def Shape.sample : Shape → Instr
  | .bare i => i
  | .withOperand build => build 0x00

/-- The mnemonic of an opcode byte, if it is one (R105). -/
def mnemonicOfOpcode (op : Byte) : Option (List Char) := (decodeOpcode op).map fun shape => mnemonicOf (Shape.sample shape)

/-- The catalog's ids in order (R104). -/
def catalogIds : List Byte := (List.range 26).map (BitVec.ofNat 8)

/-- Look a mnemonic up by exact, case-sensitive match: its opcode byte (R124). -/
def opcodeOfMnemonic (mnemonic : List Char) : Option Byte :=
  catalogIds.find? fun op => mnemonicOfOpcode op == some mnemonic

/-- The arity of an opcode byte (R103, R104). -/
def arityOfOpcode (op : Byte) : Nat :=
  match decodeOpcode op with
  | some shape => shape.arity
  | none => 0

/-! ## Text -/

/-- Split a text at every separator; the parts between two separators may be empty. -/
def splitAll (sep : Char) : List Char → List (List Char)
  | [] => [[]]
  | c :: rest =>
    if c = sep then [] :: splitAll sep rest
    else
      match splitAll sep rest with
      | [] => [[c]]
      | part :: parts => (c :: part) :: parts

/-- Split a text at its first separator: what stands before it, and what stands after it if there is one. -/
def splitFirst (sep : Char) : List Char → List Char × Option (List Char)
  | [] => ([], none)
  | c :: rest =>
    if c = sep then ([], some rest)
    else
      let (before, after) := splitFirst sep rest
      (c :: before, after)

/-- Remove a trailing comment, which begins at the first `//` (R121). -/
def stripComment : List Char → List Char
  | [] => []
  | [c] => [c]
  | c :: d :: rest => if c = '/' ∧ d = '/' then [] else c :: stripComment (d :: rest)

/-- Remove white space at both ends (R121). DESIGN CHOICE: white space is space, tab, carriage return and line feed (log 16). -/
def trim (text : List Char) : List Char :=
  ((text.dropWhile Char.isWhitespace).reverse.dropWhile Char.isWhitespace).reverse

/-- Preprocess a line: strip the comment, then trim (R121). -/
def preprocess (line : List Char) : List Char := trim (stripComment line)

/-- A label name: one or more characters, none of them a space, a comma or the marker (R123). -/
def isLabelName (name : List Char) : Bool :=
  !name.isEmpty && name.all fun c => c != ' ' && c != ',' && c != labelMarker

/-- A preprocessed line. -/
inductive AsmLine where
  /-- Empty: skipped (R121). -/
  | empty
  /-- A label declaration (R122). -/
  | label (name : List Char)
  /-- An instruction line: its mnemonic and its operands (R124). -/
  | instruction (mnemonic : List Char) (operands : List (List Char))
deriving DecidableEq, Repr

/-- Read an instruction line: the mnemonic is the text before the first space, and the operand list, if there is a space, is
the text after it split at every comma (R124). -/
def readInstructionLine (line : List Char) : AsmLine :=
  match splitFirst ' ' line with
  | (mnemonic, none) => .instruction mnemonic []
  | (mnemonic, some operands) => .instruction mnemonic (splitAll ',' operands)

/-- Read a preprocessed line (R121 to R124). -/
def readLine (line : List Char) : AsmLine :=
  match line with
  | [] => .empty
  | c :: name => if c = labelMarker ∧ isLabelName name then .label name else readInstructionLine line

/-- The value of a digit sequence, most significant digit first. -/
def decimalValue (digits : List Char) : Nat := digits.foldl (fun n c => 10 * n + (c.toNat - 48)) 0

/-- A decimal literal: one or more ASCII digits whose value is at most 255 (R125). -/
def readLiteral (text : List Char) : Option Byte :=
  if !text.isEmpty && text.all Char.isDigit && decide (decimalValue text ≤ 255) then
    some (BitVec.ofNat 8 (decimalValue text))
  else none

/-! ## Emission -/

/-- The assembler's tables while it reads lines: the bytes emitted (the write cursor is their number), the label table and
the reference table (R122, R125). -/
structure AsmState where
  bytes : List Byte
  labels : List (List Char × Byte)
  refs : List (Nat × List Char)
deriving DecidableEq, Repr

/-- Nothing emitted yet: the cursor starts at 0 (R125). -/
def AsmState.start : AsmState := { bytes := [], labels := [], refs := [] }

/-- Emit a byte at the cursor; with the cursor at 256 it fails (R126). -/
def emitByte (v : Byte) (st : AsmState) : Except AsmError AsmState :=
  if st.bytes.length < spaceSize then .ok { st with bytes := st.bytes ++ [v] } else .error .programOverflow

/-- Emit an operand: a label reference as a zero placeholder recorded in the reference table, else a literal (R125). -/
def emitOperand (operand : List Char) (st : AsmState) : Except AsmError AsmState :=
  match operand with
  | [] => .error .invalidOperandLiteral
  | c :: name =>
    if c = labelMarker then emitByte 0x00 { st with refs := st.refs ++ [(st.bytes.length, name)] }
    else
      match readLiteral operand with
      | none => .error .invalidOperandLiteral
      | some v => emitByte v st

/-- Emit the operands of an instruction line in order. -/
def emitOperands : List (List Char) → AsmState → Except AsmError AsmState
  | [], st => .ok st
  | operand :: rest, st =>
    match emitOperand operand st with
    | .error e => .error e
    | .ok st => emitOperands rest st

/-- Assemble a label declaration (R122, R126). DESIGN CHOICE: a duplicate at cursor 256 is reported as a duplicate (log 16). -/
def assembleLabel (name : List Char) (st : AsmState) : Except AsmError AsmState :=
  if (st.labels.lookup name).isSome then .error .duplicateLabel
  else if st.bytes.length < spaceSize then
    .ok { st with labels := st.labels ++ [(name, BitVec.ofNat 8 st.bytes.length)] }
  else .error .programOverflow

/-- Assemble an instruction line: look the mnemonic up, compare the operand count with the arity, emit (R124, R125). -/
def assembleInstruction (mnemonic : List Char) (operands : List (List Char)) (st : AsmState) :
    Except AsmError AsmState :=
  match opcodeOfMnemonic mnemonic with
  | none => .error .unknownMnemonic
  | some op =>
    if operands.length = arityOfOpcode op then
      match emitByte op st with
      | .error e => .error e
      | .ok st => emitOperands operands st
    else .error .arityMismatch

/-- Assemble one source line. -/
def assembleLine (line : List Char) (st : AsmState) : Except AsmError AsmState :=
  match readLine (preprocess line) with
  | .empty => .ok st
  | .label name => assembleLabel name st
  | .instruction mnemonic operands => assembleInstruction mnemonic operands st

/-- Assemble the lines in source order; the first error ends it (R129). -/
def assembleLines : List (List Char) → AsmState → Except AsmError AsmState
  | [], st => .ok st
  | line :: rest, st =>
    match assembleLine line st with
    | .error e => .error e
    | .ok st => assembleLines rest st

/-- Pass 2: patch each reference, in the order of the cursor offsets, with its label's offset (R127, R129). -/
def patchRefs (labels : List (List Char × Byte)) : List (Nat × List Char) → List Byte → Except AsmError (List Byte)
  | [], bytes => .ok bytes
  | (offset, name) :: rest, bytes =>
    match labels.lookup name with
    | none => .error .unknownLabel
    | some v => patchRefs labels rest (bytes.set offset v)

/-- The image: the emitted bytes, and zeros to 256 (R128). -/
def padImage (bytes : List Byte) : List Byte := bytes ++ List.replicate (spaceSize - bytes.length) 0x00

/-- Assemble a source text (R120 to R129). DESIGN CHOICE: a line ends at a line feed (log 16). -/
def assemble (source : List Char) : Except AsmError (List Byte) :=
  match assembleLines (splitAll '\n' source) AsmState.start with
  | .error e => .error e
  | .ok st =>
    match patchRefs st.labels st.refs st.bytes with
    | .error e => .error e
    | .ok bytes => .ok (padImage bytes)

end Sys2Proof.Machine
end

