-- ==== Sys2Proof/Machine/Mux.lean ====
section
/-! DEFINITION. The address-space multiplexer: three ports, a 2-bit space-select code, and the accesses each port makes
(R65). Every access an instruction, a fetch or the host makes is one of its routes (R70). -/

namespace Sys2Proof.Machine

/-- The space-select code of a space (R65). -/
def Space.code : Space → BitVec 2
  | .prog => 0
  | .ram => 1
  | .vram => 2

/-- The space a space-select code selects; code 3 is reserved (R65). -/
def Space.ofCode (code : BitVec 2) : Option Space :=
  if spaceCodeWf code then
    match code.toNat with
    | 0 => some .prog
    | 1 => some .ram
    | _ => some .vram
  else none

/-- The three ports (R65). -/
inductive Port where
  /-- The core's fetch port. -/
  | fetch
  /-- The core's data port, of the execute stage. -/
  | data
  /-- The port of the host's transactions. -/
  | host
deriving DecidableEq, Repr

/-- One request to the multiplexer. -/
inductive Access where
  | read (addr : Byte)
  | write (addr v : Byte)
  | fill (v : Byte)
deriving DecidableEq, Repr

/-- The accesses each port makes to each space (R65). -/
def Port.makes : Port → Space → Access → Bool
  | .fetch, .prog, .read _ => true
  | .fetch, .prog, .write _ _ => false
  | .fetch, .prog, .fill _ => false
  | .fetch, .ram, _ => false
  | .fetch, .vram, _ => false
  | .data, .prog, _ => false
  | .data, .ram, .read _ => true
  | .data, .ram, .write _ _ => true
  | .data, .ram, .fill _ => false
  | .data, .vram, .read _ => true
  | .data, .vram, .write _ _ => true
  | .data, .vram, .fill _ => true
  | .host, .prog, .write _ _ => true
  | .host, .prog, .read _ => false
  | .host, .prog, .fill _ => false
  | .host, .ram, _ => false
  | .host, .vram, .read _ => true
  | .host, .vram, .write _ _ => false
  | .host, .vram, .fill _ => false

/-- What an access does to the space it is routed to (R66 to R68), and the byte it reads.
DESIGN CHOICE: a store answers 0x00, which nothing uses (log 12). -/
def Access.perform (sp : Space) (s : State) : Access → State × Byte
  | .read addr => (s, memRead sp addr s)
  | .write addr v => (memWrite sp addr v s, 0x00)
  | .fill v => (memFill sp v s, 0x00)

/-- One request at one port, routed by its space-select code to exactly one space (R65). The reserved code, and an access
the port does not make, are refused. -/
def portRequest (p : Port) (code : BitVec 2) (access : Access) (s : State) :
    Host.Outcome (State × Byte) Fault Refusal :=
  match Space.ofCode code with
  | none => .refused .reservedSpaceCode
  | some sp => if p.makes sp access then .next (access.perform sp s) else .refused .noRoute

/-- The one data-port request of an instruction, with its space-select code, if it makes one (R70). -/
def dataRequest (s : State) : Instr → Option (BitVec 2 × Access)
  | .mvr address => some (1, .write address s.b)
  | .rdr address => some (1, .read address)
  | .mva => some (1, .write s.a s.b)
  | .rda => some (1, .read s.a)
  | .mvv value => some (2, .write s.a value)
  | .rev => some (2, .read s.a)
  | .flv value => some (2, .fill value)
  | .noop | .jmp _ | .jnz _ | .sta _ | .stb _ | .swp | .rdi _ | .add | .mul | .mod | .or | .and | .xor | .not | .shl _
  | .shr _ | .inc | .dec | .fsh => none

end Sys2Proof.Machine
end

