-- ==== Sys2Proof/Machine/ControlWord.lean ====
section
/-! DEFINITION. The decoder's control word for each opcode byte, and the datapath it drives (R110, R65).

R110 restates the instruction rules as control values. This file models that table and a datapath that knows nothing
of instructions: it fetches through the multiplexer's fetch port, takes the control word of the opcode byte, and lets
the word's fields route operands, ALU, data port and IP. It is a second description of the step, to be compared with
`step` (Machine/Step.lean), which follows the instruction rules themselves. -/

namespace Sys2Proof.Machine

/-- The columns `src1` and `src2` of R110: an input of the ALU. -/
inductive AluInput where
  | none
  | regA
  | regB
  | imm8
  | inp
  | one
  /-- The byte the data port reads in this step: RAM[imm8], RAM[A] or VRAM[A], as the column `mem` says. -/
  | portByte
deriving DecidableEq, Repr

/-- The column `ALU op` of R110. -/
inductive AluOp where
  | none
  | testNonZero
  | pass
  | exchange
  | addMod
  | subMod
  | mulMod
  | remainder
  | or
  | and
  | xor
  | complement
  | shiftLeft
  | shiftRight
deriving DecidableEq, Repr

/-- The column `dst` of R110. -/
inductive DestSelect where
  | none
  | regA
  | regB
  | both
deriving DecidableEq, Repr

/-- The column `mem` of R110: the data-port access. -/
inductive MemSelect where
  | idle
  | ramWriteImm
  | ramReadImm
  | ramWriteA
  | ramReadA
  | vramWriteA
  | vramReadA
  | vramFill
deriving DecidableEq, Repr

/-- The column `ipsel` of R110. -/
inductive IpSelect where
  | seq
  | imm
  | immIfBnz
  | hold
deriving DecidableEq, Repr

/-- The column `out` of R110. -/
inductive OutSelect where
  | none
  | divisionByZeroIfAZero
  | flush
  | unknownOp
deriving DecidableEq, Repr

/-- A row of R110. -/
structure ControlWord where
  len : Nat
  src1 : AluInput
  src2 : AluInput
  alu : AluOp
  dst : DestSelect
  mem : MemSelect
  ipsel : IpSelect
  out : OutSelect
deriving DecidableEq, Repr

/-- The table of R110, row by row; the last row is that of the opcode bytes 26 to 255. -/
def controlWord (op : Byte) : ControlWord :=
  match op.toNat with
  | 0 => ⟨1, .none, .none, .none, .none, .idle, .seq, .none⟩
  | 1 => ⟨2, .none, .none, .none, .none, .idle, .imm, .none⟩
  | 2 => ⟨2, .regB, .none, .testNonZero, .none, .idle, .immIfBnz, .none⟩
  | 3 => ⟨2, .imm8, .none, .pass, .regA, .idle, .seq, .none⟩
  | 4 => ⟨2, .imm8, .none, .pass, .regB, .idle, .seq, .none⟩
  | 5 => ⟨1, .regA, .regB, .exchange, .both, .idle, .seq, .none⟩
  | 6 => ⟨2, .regB, .none, .pass, .none, .ramWriteImm, .seq, .none⟩
  | 7 => ⟨2, .portByte, .none, .pass, .regB, .ramReadImm, .seq, .none⟩
  | 8 => ⟨1, .regB, .none, .pass, .none, .ramWriteA, .seq, .none⟩
  | 9 => ⟨1, .portByte, .none, .pass, .regB, .ramReadA, .seq, .none⟩
  | 10 => ⟨2, .imm8, .none, .pass, .none, .vramWriteA, .seq, .none⟩
  | 11 => ⟨1, .portByte, .none, .pass, .regB, .vramReadA, .seq, .none⟩
  | 12 => ⟨2, .inp, .imm8, .and, .regB, .idle, .seq, .none⟩
  | 13 => ⟨1, .regB, .regA, .addMod, .regB, .idle, .seq, .none⟩
  | 14 => ⟨1, .regB, .regA, .mulMod, .regB, .idle, .seq, .none⟩
  | 15 => ⟨1, .regB, .regA, .remainder, .regB, .idle, .seq, .divisionByZeroIfAZero⟩
  | 16 => ⟨1, .regB, .regA, .or, .regB, .idle, .seq, .none⟩
  | 17 => ⟨1, .regB, .regA, .and, .regB, .idle, .seq, .none⟩
  | 18 => ⟨1, .regB, .regA, .xor, .regB, .idle, .seq, .none⟩
  | 19 => ⟨1, .regB, .none, .complement, .regB, .idle, .seq, .none⟩
  | 20 => ⟨2, .regB, .imm8, .shiftLeft, .regB, .idle, .seq, .none⟩
  | 21 => ⟨2, .regB, .imm8, .shiftRight, .regB, .idle, .seq, .none⟩
  | 22 => ⟨1, .regA, .one, .addMod, .regA, .idle, .seq, .none⟩
  | 23 => ⟨1, .regA, .one, .subMod, .regA, .idle, .seq, .none⟩
  | 24 => ⟨2, .imm8, .none, .pass, .none, .vramFill, .seq, .none⟩
  | 25 => ⟨1, .none, .none, .none, .none, .idle, .seq, .flush⟩
  | _ => ⟨1, .none, .none, .none, .none, .idle, .hold, .unknownOp⟩

/-- The ALU as the control word drives it; an idle ALU passes its first input. -/
def AluOp.result (x y : Byte) : AluOp → Byte
  | .none | .testNonZero | .pass | .exchange => x
  | .addMod => trunc8 (x.toNat + y.toNat)
  | .subMod => trunc8 (x.toNat + (256 - y.toNat))
  | .mulMod => trunc8 (x.toNat * y.toNat)
  | .remainder => trunc8 (x.toNat % y.toNat)
  | .or => x ||| y
  | .and => x &&& y
  | .xor => x ^^^ y
  | .complement => ~~~x
  | .shiftLeft => shiftLeftUnder Config.shiftWide x y
  | .shiftRight => shiftRightUnder Config.shiftWide x y

/-- An input of the ALU: a register of the snapshot, the operand byte, the constant 1, or the byte the data port read. -/
def AluInput.value (s : State) (imm8 portByte : Byte) : AluInput → Byte
  | .none => 0x00
  | .regA => s.a
  | .regB => s.b
  | .imm8 => imm8
  | .inp => s.inp
  | .one => 0x01
  | .portByte => portByte

/-- The read the data port makes, with its space-select code, if the control word asks for one (R65, R110). -/
def MemSelect.readRequest (s : State) (imm8 : Byte) : MemSelect → Option (BitVec 2 × Access)
  | .ramReadImm => some (1, .read imm8)
  | .ramReadA => some (1, .read s.a)
  | .vramReadA => some (2, .read s.a)
  | .idle | .ramWriteImm | .ramWriteA | .vramWriteA | .vramFill => none

/-- The store the data port makes of the ALU's result, with its space-select code, if the control word asks for one. -/
def MemSelect.writeRequest (s : State) (imm8 v : Byte) : MemSelect → Option (BitVec 2 × Access)
  | .ramWriteImm => some (1, .write imm8 v)
  | .ramWriteA => some (1, .write s.a v)
  | .vramWriteA => some (2, .write s.a v)
  | .vramFill => some (2, .fill v)
  | .idle | .ramReadImm | .ramReadA | .vramReadA => none

/-- One request at a port if there is one, and then the rest of the step with the state and the byte it answers. -/
def viaPort (p : Port) (request : Option (BitVec 2 × Access)) (s : State) (rest : State → Byte → Answer) : Answer :=
  match request with
  | none => rest s 0x00
  | some (code, access) =>
    match portRequest p code access s with
    | .next (t, v) => rest t v
    | .fault f => .fault f
    | .refused r => .refused r

/-- The register write: the ALU's result to A or to B, or the two ALU inputs exchanged between A and B. -/
def DestSelect.write (result x y : Byte) (s : State) : DestSelect → State
  | .none => s
  | .regA => { s with a := result }
  | .regB => { s with b := result }
  | .both => { s with a := y, b := x }

/-- The end of a datapath step: the IP source, and the outcome the control word contributes (R110). -/
def ControlWord.finish (w : ControlWord) (imm8 : Byte) (taken : Bool) (s : State) : State :=
  match w.ipsel with
  | .imm => s.transfer imm8
  | .immIfBnz => if taken then s.transfer imm8 else s.advance (w.len - 1) .continue_
  | .seq => s.advance (w.len - 1) (match w.out with
      | .flush => .flush
      | .none | .divisionByZeroIfAZero | .unknownOp => .continue_)
  | .hold => s

/-- The execute stage under a control word: data-port read, ALU, register write, data-port store, IP and outcome. -/
def ControlWord.execute (w : ControlWord) (imm8 : Byte) (s : State) : Answer :=
  if w.out = .divisionByZeroIfAZero ∧ s.a = 0x00 then raise .divisionByZero s
  else
    viaPort .data (w.mem.readRequest s imm8) s fun s portByte =>
      let x := w.src1.value s imm8 portByte
      let y := w.src2.value s imm8 portByte
      let result := w.alu.result x y
      viaPort .data (w.mem.writeRequest s imm8 result) (w.dst.write result x y s) fun t _ =>
        .next (w.finish imm8 (bNonZero s) t)

/-- A step of the datapath: fetch the opcode byte through the fetch port, take its control word, check and fetch the
operand byte through the fetch port, execute. -/
def datapathStep (s : State) : Answer :=
  if s.halt then .next s
  else
    viaPort .fetch (some (0, .read s.ip)) s fun s op =>
      let w := controlWord op
      if w.out = .unknownOp then raise (.unknownOp op) s
      else if operandInBounds (w.len - 1) s then
        viaPort .fetch (if w.len = 2 then some (0, .read (trunc8 (s.ip.toNat + 1))) else none) s fun s imm8 =>
          w.execute imm8 s
      else raise .argOutOfBounds s

end Sys2Proof.Machine
end

