-- ==== Sys2Proof/Machine/Run.lean ====
section
/-! DEFINITION. Run until frame boundary (R162 to R164), under fuel: a run has no bound on its steps, and a run that has not
ended when the fuel is used up is not an outcome of the hardware (R163). -/

namespace Sys2Proof.Machine

/-- How far a run has come. -/
inductive RunResult where
  /-- The run returned to the host with the outcome latched in this state. -/
  | returned (s : State)
  /-- The fuel is used up in this state: the run goes on in the hardware. -/
  | unfinished (s : State)
deriving DecidableEq, Repr

/-- `Run()` (R162): repeat the step until one ends with an outcome other than Continue. A run requested while HALT = 1
returns the latched outcome without stepping (R312). -/
def runToBoundary : Nat → State → Host.Outcome RunResult Fault Refusal
  | fuel, s =>
    if s.halt then .next (.returned s)
    else
      match fuel with
      | 0 => .next (.unfinished s)
      | fuel + 1 =>
        match step s with
        | .next t => if t.outcome = .continue_ then runToBoundary fuel t else .next (.returned t)
        | .fault f => .fault f
        | .refused r => .refused r

/-- The frame the host takes after a Flush: the 256 VRAM bytes in index order (R306, R324). -/
def State.frame (s : State) : List Byte := s.vram.bytes

end Sys2Proof.Machine
end

