-- ==== Sys2Proof/Machine/Platform.lean ====
section
/-! DEFINITION. The platform contract: what the bits of INP and the bytes of VRAM mean to the presentation layer
(60_exceptions.md section 5). The presentation layer itself is outside the block (R7). -/

namespace Sys2Proof.Machine

/-- The four directional inputs, low bits of INP (R330); a set bit is active. -/
inductive Direction where
  | left
  | right
  | down
  | up
deriving DecidableEq, Repr

/-- The bit of INP of a direction (R330). -/
def Direction.bit : Direction → Nat
  | .left => 0
  | .right => 1
  | .down => 2
  | .up => 3

/-- Whether a direction is active in an input byte (R330). -/
def Direction.active (d : Direction) (inp : Byte) : Bool := bits d.bit d.bit inp == 1

/-- The input byte of a set of directions, reserved bits 7 to 4 written as 0 (R328, R330). -/
def inputByte (left right down up : Bool) : Byte :=
  trunc8 ((if left then 1 else 0) + (if right then 2 else 0) + (if down then 4 else 0) + (if up then 8 else 0))

/-- The width and the height of the frame (R10, R331). -/
def frameSide : Nat := 16

/-- The VRAM index of the pixel at column x and logical row y (R331). -/
def pixelIndex (x y : Fin 16) : Byte := trunc8 (x.val + frameSide * y.val)

/-- The column of a VRAM index (R331). -/
def pixelX (index : Byte) : Nat := index.toNat % frameSide

/-- The logical row of a VRAM index (R331). -/
def pixelY (index : Byte) : Nat := index.toNat / frameSide

/-- A pixel's colour intensities, each 0 to 255. -/
structure Colour where
  red : Nat
  green : Nat
  blue : Nat
deriving DecidableEq, Repr

/-- The colour of a VRAM byte: three 2-bit channels scaled by 85; bits 7 and 6 have no colour meaning (R332). -/
def colourOf (v : Byte) : Colour := { red := 85 * bits 5 4 v, green := 85 * bits 3 2 v, blue := 85 * bits 1 0 v }

/-- The colour shown at a column and a logical row of the current frame. -/
def State.pixel (s : State) (x y : Fin 16) : Colour := colourOf (memRead .vram (pixelIndex x y) s)

/-- The line of the display, counted from its top, that shows a logical row: row 15 is at the top (R333). -/
def displayLine (y : Fin 16) : Nat := 15 - y.val

end Sys2Proof.Machine
end

