-- ==== Sys2Proof/Machine/HostPort.lean ====
section
/-! DEFINITION. The host interface: the transactions and the signal-level commands (60_exceptions.md section 4).

Each transaction is atomic and comes between steps (R150, R320). A RUN may still be in progress when the model's fuel is
used up (R163): the block as the host sees it is the machine's state and whether a RUN is in progress, and a transaction
issued during a RUN has no meaning and is given no move (R328). Memory accesses go through the multiplexer's host port
(R65). -/

namespace Sys2Proof.Machine

/-- The host transactions, complete (R320). RUN carries the model's fuel (R163). -/
inductive Transaction where
  /-- RESET (R327). -/
  | reset
  /-- LOAD of a 256-byte image (R321). -/
  | load (image : List Byte)
  /-- PROG_WRITE (R321). -/
  | progWrite (addr v : Byte)
  /-- INP_WRITE (R322). -/
  | inpWrite (v : Byte)
  /-- STEP (R323). -/
  | step
  /-- RUN (R325). -/
  | run (fuel : Nat)
  /-- FRAME_READ (R324). -/
  | frameRead (addr : Byte)
  /-- STATE_READ (R326). -/
  | stateRead (sel : Byte)
deriving DecidableEq, Repr

/-- What the block returns to the host (R328). -/
inductive Response where
  /-- Nothing is returned. -/
  | done
  /-- The outcome code and payload. -/
  | outcome (code : BitVec 3) (payload : Byte)
  /-- A byte read. -/
  | data (v : Byte)
  /-- No response yet: a RUN has not ended within the model's fuel and is in progress (R163). -/
  | running
deriving DecidableEq, Repr

/-- The block as the host sees it: the state of the machine, and `busy`, whether a RUN is in progress (R328, R329). Every
other transaction ends in the move that issues it. -/
structure Block where
  state : State
  busy : Bool
deriving DecidableEq, Repr

/-- A block between transactions, which is idle and keeps all its state (R335). -/
def Block.idle (s : State) : Block := { state := s, busy := false }

/-- The status byte STATE_READ returns (R326): `(HALT in bit 3, OUTC in bits 2 to 0)` at selector 4, 0x00 at selectors 6 and
more. -/
def statusByte (s : State) (sel : Byte) : Byte :=
  match sel.toNat with
  | 0 => s.a
  | 1 => s.b
  | 2 => s.ip
  | 3 => s.inp
  | 4 => trunc8 ((if s.halt then 8 else 0) + s.outc.toNat)
  | 5 => s.outp
  | _ => 0x00

/-- INP_WRITE (R322): all 8 bits are stored as written (R37). -/
def inpWrite (v : Byte) (s : State) : State := { s with inp := v }

/-- PROG_WRITE through the host port (R321, R65). -/
def progWrite (addr v : Byte) (s : State) : Host.Outcome State Fault Refusal :=
  match portRequest .host Space.prog.code (.write addr v) s with
  | .next (t, _) => .next t
  | .fault f => .fault f
  | .refused r => .refused r

/-- PROG_WRITEs of a byte sequence at rising addresses. -/
def progWrites : Nat → List Byte → State → Host.Outcome State Fault Refusal
  | _, [], s => .next s
  | i, v :: rest, s =>
    match progWrite (trunc8 i) v s with
    | .next t => progWrites (i + 1) rest t
    | .fault f => .fault f
    | .refused r => .refused r

/-- LOAD (R321): the 256 PROG_WRITEs of an image at addresses 0 to 255 in order. DESIGN CHOICE: an image of another length is
refused (log 15). -/
def loadImage (image : List Byte) (s : State) : Host.Outcome State Fault Refusal :=
  if imageWf image then progWrites 0 image s else .refused .malformedImage

/-- The response that reports the latched outcome (R312, R323). -/
def State.report (s : State) : Response := .outcome s.outc s.outp

/-- The end of a transaction in its own move: the block is idle again. -/
def completed : Host.Outcome State Fault Refusal → (State → Response) → Host.Outcome (Block × Response) Fault Refusal
  | .next t, response => .next (.idle t, response t)
  | .fault f, _ => .fault f
  | .refused r, _ => .refused r

/-- A RUN from where it stands (R325, R162), under fuel: it returns its final outcome, or it is still in progress, with no
response and the block busy (R163, R329). -/
def runFrom (fuel : Nat) (s : State) : Host.Outcome (Block × Response) Fault Refusal :=
  match runToBoundary fuel s with
  | .next (.returned t) => .next (.idle t, t.report)
  | .next (.unfinished t) => .next ({ state := t, busy := true }, .running)
  | .fault f => .fault f
  | .refused r => .refused r

/-- One host transaction (R320 to R327). During a RUN it has no meaning: it is refused, the model's way of giving no move
(R328, D27, I15). -/
def transact (t : Transaction) (b : Block) : Host.Outcome (Block × Response) Fault Refusal :=
  if b.busy then .refused .transactionInProgress
  else
    match t with
    | .reset => .next (.idle (resetBlock b.state), .done)
    | .load image => completed (loadImage image b.state) fun _ => .done
    | .progWrite addr v => completed (progWrite addr v b.state) fun _ => .done
    | .inpWrite v => .next (.idle (inpWrite v b.state), .done)
    | .step => completed (step b.state) State.report
    | .run fuel => runFrom fuel b.state
    | .frameRead addr =>
      match portRequest .host Space.vram.code (.read addr) b.state with
      | .next (t, v) => .next (.idle t, .data v)
      | .fault f => .fault f
      | .refused r => .refused r
    | .stateRead sel => .next (.idle b.state, .data (statusByte b.state sel))

/-- The one move of a busy block: its RUN goes on, under more fuel. An idle block does nothing (R335). -/
def continueRun (fuel : Nat) (b : Block) : Host.Outcome (Block × Response) Fault Refusal :=
  if b.busy then runFrom fuel b.state else .next (b, .done)

/-- A sequence of transactions, one after another (R77), stopping at a refusal: so a sequence with a transaction after a RUN
that has not returned has no meaning (R328). -/
def transactAll : List Transaction → Block → Host.Outcome (Block × List Response) Fault Refusal
  | [], b => .next (b, [])
  | t :: ts, b =>
    match transact t b with
    | .next (c, r) =>
      match transactAll ts c with
      | .next (d, rs) => .next (d, r :: rs)
      | .fault f => .fault f
      | .refused e => .refused e
    | .fault f => .fault f
    | .refused e => .refused e

/-! ## The boot and frame sequence (R354) -/

/-- The host's boot: RESET, then LOAD of the image (R354). -/
def bootSequence (image : List Byte) : List Transaction := [.reset, .load image]

/-- The 256 FRAME_READs of a frame, in index order (R354, R324). -/
def frameReads : List Transaction := (List.range spaceSize).map fun i => .frameRead (trunc8 i)

/-- The byte a response carries. -/
def Response.byte? : Response → Option Byte
  | .data v => some v
  | .done | .outcome _ _ | .running => none

/-- How a frame tick ends (R354). -/
inductive TickEnd where
  /-- RUN returned Flush, and these are the bytes of the frame in index order. -/
  | frame (pixels : List Byte)
  /-- RUN returned another outcome: the host stops, and the block is halted. -/
  | stopped (o : StepOutcome)
  /-- RUN has not returned within the model's fuel (R163). -/
  | running
deriving DecidableEq, Repr

/-- What the host does once a RUN has answered: after Flush it reads the 256 bytes of the frame, after another outcome it
stops (R354), and while the RUN is in progress it does nothing (R328). -/
def afterRun (b : Block) : Response → Host.Outcome (Block × TickEnd) Fault Refusal
  | .outcome code payload =>
    if StepOutcome.ofCode code payload = .flush then
      match transactAll frameReads b with
      | .next (c, rs) => .next (c, .frame (rs.filterMap Response.byte?))
      | .fault f => .fault f
      | .refused r => .refused r
    else .next (b, .stopped (StepOutcome.ofCode code payload))
  | .running | .done | .data _ => .next (b, .running)

/-- One frame tick: INP_WRITE of the input bits, RUN, and what the outcome calls for (R354, R322). -/
def frameTick (fuel : Nat) (input : Byte) (b : Block) : Host.Outcome (Block × TickEnd) Fault Refusal :=
  match transact (.inpWrite input) b with
  | .next (c, _) =>
    match transact (.run fuel) c with
    | .next (d, r) => afterRun d r
    | .fault f => .fault f
    | .refused r => .refused r
  | .fault f => .fault f
  | .refused r => .refused r

/-- The frame ticks, one for each input byte, until one ends otherwise than with a frame (R354). -/
def frameLoop (fuel : Nat) : List Byte → Block → Host.Outcome (Block × List TickEnd) Fault Refusal
  | [], b => .next (b, [])
  | input :: inputs, b =>
    match frameTick fuel input b with
    | .next (c, .frame pixels) =>
      match frameLoop fuel inputs c with
      | .next (d, ends) => .next (d, .frame pixels :: ends)
      | .fault f => .fault f
      | .refused r => .refused r
    | .next (c, stop) => .next (c, [stop])
    | .fault f => .fault f
    | .refused r => .refused r

/-- The whole sequence: boot, then the frame ticks (R354). -/
def bootAndRun (fuel : Nat) (image inputs : List Byte) (b : Block) : Host.Outcome (Block × List TickEnd) Fault Refusal :=
  match transactAll (bootSequence image) b with
  | .next (c, _) => frameLoop fuel inputs c
  | .fault f => .fault f
  | .refused r => .refused r

/-! ## Signal level (R329) -/

/-- The inputs (R329). -/
structure Signals where
  rst : Bool
  cmdValid : Bool
  cmd : BitVec 3
  addr : Byte
  wdata : Byte
deriving DecidableEq, Repr

/-- The outputs (R329). -/
structure SignalReply where
  /-- A RUN is in progress. -/
  busy : Bool
  respValid : Bool
  /-- The byte of FRAME_READ and STATE_READ, 0x00 for a reserved `cmd`; the specification gives it no meaning else. -/
  rdata : Option Byte
  outCode : BitVec 3
  outPayload : Byte
  halted : Bool
deriving DecidableEq, Repr

/-- The transaction a `cmd` value requests; 6 and 7 are reserved (R329). -/
def commandOf (fuel : Nat) (g : Signals) : Option Transaction :=
  match g.cmd.toNat with
  | 0 => some .step
  | 1 => some (.run fuel)
  | 2 => some (.progWrite g.addr g.wdata)
  | 3 => some (.inpWrite g.wdata)
  | 4 => some (.frameRead g.addr)
  | 5 => some (.stateRead g.addr)
  | _ => none

/-- The outputs that show the block: `busy` and the status fields, with a response pulse and a read byte. -/
def Block.signalReply (b : Block) (respValid : Bool) (rdata : Option Byte) : SignalReply :=
  { busy := b.busy, respValid := respValid, rdata := rdata, outCode := b.state.outc, outPayload := b.state.outp,
    halted := b.state.halt }

/-- The outputs after a move: the response is pulsed when the transaction has completed, which is when the block is not busy,
and a read byte is shown if there is one (R329). -/
def signalled : Host.Outcome (Block × Response) Fault Refusal → Host.Outcome (Block × SignalReply) Fault Refusal
  | .next (c, r) => .next (c, c.signalReply (!c.busy) r.byte?)
  | .fault f => .fault f
  | .refused r => .refused r

/-- One move at signal level (R329). `rst` performs RESET; else a busy block ignores `cmd_valid` and its RUN goes on, keeping
`busy` at 1 until its final step; else a valid command performs its transaction, and a reserved one has no effect and answers
0x00; with no valid command the block keeps all its state (R335).
DESIGN CHOICE: `rst` comes before a command and ends a RUN in progress (log 17). -/
def signalCommand (fuel : Nat) (g : Signals) (b : Block) : Host.Outcome (Block × SignalReply) Fault Refusal :=
  if g.rst then .next (.idle (resetBlock b.state), (Block.idle (resetBlock b.state)).signalReply false none)
  else if b.busy then signalled (continueRun fuel b)
  else if g.cmdValid then
    match commandOf fuel g with
    | none => .next (b, b.signalReply true (some 0x00))
    | some t => signalled (transact t b)
  else .next (b, b.signalReply false none)

end Sys2Proof.Machine
end

