-- ==== Sys2Proof/Safety.lean ====
section
/-! DEFINITION. What the claims about the machine call a legal state, and what counts as a fault of a program. -/

namespace Sys2Proof.Machine

/-- The three memories are in canonical form. -/
def State.memoriesWf (s : State) : Bool := s.prog.wf && s.ram.wf && s.vram.wf

/-- The outcome codes a step reports: all but those of ReadOutOfBounds and WriteOutOfBounds (R301, R310). -/
def reachableCode (code : BitVec 3) : Bool := code != 1#3 && code != 2#3

/-- The codes of the halting outcomes: all but Continue and Flush (R310, R311). -/
def haltingCode (code : BitVec 3) : Bool := code != 0#3 && code != 6#3

/-- The payload is that of the code: an illegal opcode byte for UnknownOp, 0x00 for every other outcome (R42, R310). -/
def payloadWf (code : BitVec 3) (payload : Byte) : Bool :=
  if code = 5#3 then decide (26 ≤ payload.toNat) else payload == 0x00

/-- HALT, OUTC and OUTP agree (R40 to R42, R309 to R312). -/
def State.statusWf (s : State) : Bool :=
  (s.halt == haltingCode s.outc) && reachableCode s.outc && payloadWf s.outc s.outp

/-- A legal state: canonical memories, and status fields that agree. -/
abbrev State.Inv (s : State) : Prop := s.memoriesWf = true ∧ s.statusWf = true

/-- A legal block: its machine's state is legal, and a block with a RUN in progress is not halted (R162, R312). -/
abbrev Block.Inv (b : Block) : Prop := b.state.Inv ∧ (b.busy = true → b.state.halt = false)

/-- The contents drawn for `RESET_FILL` are canonical (R11). -/
def ResetFill.wf (fill : ResetFill) : Bool := fill.ram.wf && fill.vram.wf

/-- The outcomes that report a fault of the program: the halting ones other than EndOfProgram, which is a program's end
and not a crash (R303, C4). -/
def StepOutcome.isFault : StepOutcome → Bool
  | .continue_ | .flush | .endOfProgram => false
  | .readOutOfBounds | .writeOutOfBounds | .argOutOfBounds | .unknownOp _ | .divisionByZero => true

/-- A run of `n` steps in which no step reports a fault of the program. -/
def SafeFor : Nat → State → Prop
  | 0, _ => True
  | n + 1, s => ∃ t, step s = .next t ∧ t.outcome.isFault = false ∧ SafeFor n t

end Sys2Proof.Machine
end

