-- ==== Sys2Proof/Certificates/Slice0/Obligations.lean ====
section
/-! DEFINITION. The statements for the provers.

Many rules rest on decisions the specification marks as its own (D<n> of 92_eei_decisions.md); each docstring names those
its statement rests on. Throughout, the outcome codes in OUTC are D4's (R310), the payload D28's, the sticky HALT D5's, and
the opcode ids other than 2, 3, 4, 13 and 25 D1's (log 3, log 6). -/

open Sys2Proof Sys2Proof.Machine

/-! ## Words the statements share -/

/-- The ends of the step of a decoded one-byte instruction that does not transfer control, whose stage-E writes turn the
state at the start of the step into `effect s` and which reports `code`: at IP 0 to 254 the step answers the state with the
writes, IP advanced by 1 and the outcome `code`; at IP 255 the writes, IP unchanged and EndOfProgram. Everything that
`effect` leaves alone is unchanged. -/
def Sys2Proof.Claim.endsAsF0 (i : Instr) (code : BitVec 3) (effect : State → State) (s : State) : Prop :=
  (s.ip.toNat ≤ 254 →
    exec i s = .next { effect s with ip := BitVec.ofNat 8 (s.ip.toNat + 1), outc := code, outp := 0x00 }) ∧
  (s.ip.toNat = 255 →
    exec i s = .next { effect s with outc := 3, outp := 0x00, halt := true })

/-- The ends of the step of a decoded two-byte instruction that does not transfer control: at IP 0 to 253 the writes, IP
advanced by 2 and Continue; at IP 254 the writes, IP unchanged and EndOfProgram; at IP 255 no write and ArgOutOfBounds. -/
def Sys2Proof.Claim.endsAsF1 (i : Instr) (effect : State → State) (s : State) : Prop :=
  (s.ip.toNat ≤ 253 →
    exec i s = .next { effect s with ip := BitVec.ofNat 8 (s.ip.toNat + 2), outc := 0, outp := 0x00 }) ∧
  (s.ip.toNat = 254 →
    exec i s = .next { effect s with outc := 3, outp := 0x00, halt := true }) ∧
  (s.ip.toNat = 255 →
    exec i s = .next { s with outc := 4, outp := 0x00, halt := true })

/-- The ends of a taken transfer: at IP 0 to 254 IP takes the target and the step continues, with no EndOfProgram at IP 254;
at IP 255 ArgOutOfBounds and nothing else. -/
def Sys2Proof.Claim.endsAsTransfer (i : Instr) (target : Byte) (s : State) : Prop :=
  (s.ip.toNat ≤ 254 → exec i s = .next { s with ip := target, outc := 0, outp := 0x00 }) ∧
  (s.ip.toNat = 255 → exec i s = .next { s with outc := 4, outp := 0x00, halt := true })

/-- The instructions that write A (R31). -/
def Sys2Proof.Claim.writesA : Instr → Bool
  | .sta _ | .swp | .inc | .dec => true
  | .noop | .jmp _ | .jnz _ | .stb _ | .mvr _ | .rdr _ | .mva | .rda | .mvv _ | .rev | .rdi _ | .add | .mul | .mod | .or
  | .and | .xor | .not | .shl _ | .shr _ | .flv _ | .fsh => false

/-- The instructions that write B (R32). -/
def Sys2Proof.Claim.writesB : Instr → Bool
  | .stb _ | .swp | .rdr _ | .rda | .rev | .rdi _ | .add | .mul | .mod | .or | .and | .xor | .not | .shl _ | .shr _ => true
  | .noop | .jmp _ | .jnz _ | .sta _ | .mvr _ | .mva | .mvv _ | .inc | .dec | .flv _ | .fsh => false

/-- The instructions that store to memory (R70). -/
def Sys2Proof.Claim.stores : Instr → Bool
  | .mvr _ | .mva | .mvv _ | .flv _ => true
  | .noop | .jmp _ | .jnz _ | .sta _ | .stb _ | .swp | .rdr _ | .rda | .rev | .rdi _ | .add | .mul | .mod | .or | .and
  | .xor | .not | .shl _ | .shr _ | .inc | .dec | .fsh => false

/-- The target of the instructions that store one byte (R70, R207). -/
def Sys2Proof.Claim.storeTarget : Instr → Option Target
  | .mvr address => some (.ramAbsolute address)
  | .mva => some .ramIndirect
  | .mvv _ => some .vramIndirect
  | .noop | .jmp _ | .jnz _ | .sta _ | .stb _ | .swp | .rdr _ | .rda | .rev | .rdi _ | .add | .mul | .mod | .or | .and
  | .xor | .not | .shl _ | .shr _ | .inc | .dec | .flv _ | .fsh => none

/-- The byte the instructions that store one byte store: the operand for mvv, else B (R70). -/
def Sys2Proof.Claim.storedByte (s : State) : Instr → Byte
  | .mvv value => value
  | .noop | .jmp _ | .jnz _ | .sta _ | .stb _ | .swp | .mvr _ | .rdr _ | .mva | .rda | .rev | .rdi _ | .add | .mul | .mod
  | .or | .and | .xor | .not | .shl _ | .shr _ | .inc | .dec | .flv _ | .fsh => s.b

/-- Whether an opcode byte has arity 1 (R304: the eleven of jmp, jnz, sta, stb, mvr, rdr, mvv, rdi, shl, shr, flv). -/
def Sys2Proof.Claim.takesOperand (op : Byte) : Bool :=
  [0x01, 0x02, 0x03, 0x04, 0x06, 0x07, 0x0A, 0x0C, 0x14, 0x15, 0x18].contains op

/-- Whether the instruction of an opcode byte transfers control from a state (R156). -/
def Sys2Proof.Claim.takesJump (op : Byte) (s : State) : Bool := op == 0x01 || (op == 0x02 && s.b != 0x00)

/-- The outcome of a step that runs, by the priority of R313: UnknownOp, ArgOutOfBounds, DivisionByZero, then a taken
transfer's Continue, EndOfProgram, Flush, Continue. -/
def Sys2Proof.Claim.outcomeByPriority (s : State) : StepOutcome :=
  let op := memRead .prog s.ip s
  let operands := if Claim.takesOperand op then 1 else 0
  if 26 ≤ op.toNat then .unknownOp op
  else if 255 < s.ip.toNat + operands then .argOutOfBounds
  else if op = 0x0F ∧ s.a = 0x00 then .divisionByZero
  else if Claim.takesJump op s then .continue_
  else if 255 < s.ip.toNat + 1 + operands then .endOfProgram
  else if op = 0x19 then .flush
  else .continue_

/-- A source line for an instruction: the mnemonic, and the operand in decimal after one space (R124, R125). -/
def Sys2Proof.Claim.sourceLine (i : Instr) : List Char :=
  mnemonicOf i ++
    match i.operand? with
    | none => []
    | some v => ' ' :: Nat.toDigits 10 v.toNat

/-- The source text of a sequence of instructions, one a line. -/
def Sys2Proof.Claim.sourceText (is : List Instr) : List Char := is.flatMap fun i => Claim.sourceLine i ++ ['\n']

/-! ## Encoding -/

/-- Decode and encode agree: a byte sequence decodes to an instruction and a rest exactly when it is the instruction's
encoding followed by that rest. So decoding an encoded instruction gives it back with every operand at every value, no two
encodings stand for one instruction, and no byte is dropped (R100 to R105; ids D1, log 3). -/
def Obligations.DecodeInvertsEncode : Prop :=
  ∀ (bytes after : List Byte) (i : Instr), decode bytes = .ok (i, after) ↔ bytes = encode i ++ after

/-- Every sequence of instructions laid out densely decodes, from its start, to itself (R100, R109; ids D1, log 3). -/
def Obligations.DenseSequencesDecode : Prop :=
  ∀ (is : List Instr) (bound : Nat), (encodeAll is).length ≤ bound → decodeSequence bound (encodeAll is) = .ok is

/-- R105: the decoder is total on the 256 byte values; a byte up to 25 gives the row with that id, so every instruction
the row builds has that opcode byte, a row without an operand is an instruction without one, and a byte of 26 or more gives no
instruction. -/
def Obligations.DecoderIsBoundsChecked : Prop :=
  ∀ op : Byte,
    (op.toNat ≤ 25 →
      (∃ i : Instr, decodeOpcode op = some (.bare i) ∧ i.opcode = op ∧ i.operand? = none) ∨
      (∃ build : Byte → Instr, decodeOpcode op = some (.withOperand build) ∧
        ∀ v, (build v).opcode = op ∧ (build v).operand? = some v)) ∧
    (26 ≤ op.toNat → decodeOpcode op = none)

/-- Words written out from the opcode table decode to their instructions (R104; a sanity statement). -/
def Obligations.SampleWordsDecode : Prop :=
  decode [0b00000000] = .ok (.noop, []) ∧
  decode [0b00000010, 0b00101000] = .ok (.jnz 40, []) ∧
  decode [0b00000011, 0b10000000] = .ok (.sta 128, []) ∧
  decode [0b00000110, 0b11111111] = .ok (.mvr 255, []) ∧
  decode [0b00001010, 0b00110000] = .ok (.mvv 48, []) ∧
  decode [0b00001101] = .ok (.add, []) ∧
  decode [0b00010100, 0b00000100] = .ok (.shl 4, []) ∧
  decode [0b00011000, 0b00010101] = .ok (.flv 21, []) ∧
  decode [0b00011001, 0b00000001] = .ok (.fsh, [0b00000001]) ∧
  decode [0b00011010] = .error (.unknownOpcode 0b00011010) ∧
  decode [0b00000100] = .error (.operandMissing 0b00000100)

/-- Every mnemonic round-trips: looking it up gives the instruction's id, and the id's mnemonic is the same (R131 (a)). -/
def Obligations.MnemonicsRoundTrip : Prop :=
  ∀ i : Instr, opcodeOfMnemonic (mnemonicOf i) = some i.opcode ∧ mnemonicOfOpcode i.opcode = some (mnemonicOf i)

/-! ## Each instruction: result, frame and completion -/

/-- noop (R180; id D1, EndOfProgram's IP D8). -/
def Obligations.NoopOnlyAdvances : Prop := ∀ s : State, Claim.endsAsF0 .noop 0 id s

/-- jmp (R181; id D1, Continue after a transfer D10). -/
def Obligations.JmpSetsIp : Prop := ∀ (target : Byte) (s : State), Claim.endsAsTransfer (.jmp target) target s

/-- jnz, whole rule R182: opcode 2; with B not 0 it transfers, with B = 0 it only advances; at IP 255 ArgOutOfBounds whatever
B is (codes D4, HALT D5, the ends of the step D8, D9, D10: log 6, log 7). -/
def Obligations.JnzTestsB : Prop :=
  ∀ (target : Byte) (s : State),
    encode (.jnz target) = [0x02, target] ∧
    (s.b ≠ 0x00 → Claim.endsAsTransfer (.jnz target) target s) ∧
    (s.b = 0x00 → Claim.endsAsF1 (.jnz target) id s)

/-- sta, whole rule R190: opcode 3; A takes the operand (codes D4, HALT D5, the ends of the step D8, D9: log 6, log 7). -/
def Obligations.StaSetsA : Prop :=
  ∀ (value : Byte) (s : State),
    encode (.sta value) = [0x03, value] ∧ Claim.endsAsF1 (.sta value) (fun s => { s with a := value }) s

/-- stb, whole rule R191: opcode 4; B takes the operand (codes D4, HALT D5, the ends of the step D8, D9: log 6, log 7). -/
def Obligations.StbSetsB : Prop :=
  ∀ (value : Byte) (s : State),
    encode (.stb value) = [0x04, value] ∧ Claim.endsAsF1 (.stb value) (fun s => { s with b := value }) s

/-- swp (R192; id D1): A and B are exchanged. -/
def Obligations.SwpExchangesAB : Prop :=
  ∀ s : State, Claim.endsAsF0 .swp 0 (fun s => { s with a := s.b, b := s.a }) s

/-- mvr and mva (R200, R202; ids D1): RAM at the operand, and RAM at A, take B. -/
def Obligations.RamStoresWriteB : Prop :=
  ∀ s : State,
    (∀ address : Byte,
      Claim.endsAsF1 (.mvr address) (fun s => { s with ram := s.ram.write address.toNat s.b }) s) ∧
    Claim.endsAsF0 .mva 0 (fun s => { s with ram := s.ram.write s.a.toNat s.b }) s

/-- rdr and rda (R201, R203; ids D1): B takes RAM at the operand, and RAM at A. -/
def Obligations.RamLoadsReadToB : Prop :=
  ∀ s : State,
    (∀ address : Byte,
      Claim.endsAsF1 (.rdr address) (fun s => { s with b := s.ram.read address.toNat }) s) ∧
    Claim.endsAsF0 .rda 0 (fun s => { s with b := s.ram.read s.a.toNat }) s

/-- mvv and rev (R204, R205; ids D1): VRAM at A takes the operand, and B takes VRAM at A. -/
def Obligations.VramAccessesAreAtA : Prop :=
  ∀ s : State,
    (∀ value : Byte,
      Claim.endsAsF1 (.mvv value) (fun s => { s with vram := s.vram.write s.a.toNat value }) s) ∧
    Claim.endsAsF0 .rev 0 (fun s => { s with b := s.vram.read s.a.toNat }) s

/-- rdi (R206; id D1, reserved bits D11): B takes INP under the mask, all 8 bits of it. -/
def Obligations.RdiReadsInpThroughMask : Prop :=
  ∀ (mask : Byte) (s : State), Claim.endsAsF1 (.rdi mask) (fun s => { s with b := s.inp &&& mask }) s

/-- add, whole rule R230: opcode 13; B takes (B + A) mod 256 (codes D4, HALT D5, the ends of the step D8: log 6, log 7). -/
def Obligations.AddWrapsModulo256 : Prop :=
  ∀ s : State,
    encode .add = [0x0D] ∧
    Claim.endsAsF0 .add 0 (fun s => { s with b := BitVec.ofNat 8 ((s.b.toNat + s.a.toNat) % 256) }) s

/-- mul (R231; id D1): B takes (B * A) mod 256. -/
def Obligations.MulKeepsLowByte : Prop :=
  ∀ s : State, Claim.endsAsF0 .mul 0 (fun s => { s with b := BitVec.ofNat 8 (s.b.toNat * s.a.toNat % 256) }) s

/-- mod (R232, R223; id D1) with A not 0: B takes b - a * floor(b / a), which is below A. -/
def Obligations.ModTakesRemainder : Prop :=
  ∀ s : State, s.a ≠ 0x00 →
    Claim.endsAsF0 .mod 0
      (fun s => { s with b := BitVec.ofNat 8 (s.b.toNat - s.a.toNat * (s.b.toNat / s.a.toNat)) }) s ∧
    s.b.toNat - s.a.toNat * (s.b.toNat / s.a.toNat) < s.a.toNat

/-- mod with A = 0 (R232, R307; the policy is D6): DivisionByZero at every IP, 255 included, and nothing else changes. -/
def Obligations.ModByZeroHalts : Prop :=
  ∀ s : State, s.a = 0x00 → exec .mod s = .next { s with outc := 7, outp := 0x00, halt := true }

/-- or, and, xor (R233 to R235; ids D1). -/
def Obligations.LogicInstructionsAreBitwise : Prop :=
  ∀ s : State,
    Claim.endsAsF0 .or 0 (fun s => { s with b := s.b ||| s.a }) s ∧
    Claim.endsAsF0 .and 0 (fun s => { s with b := s.b &&& s.a }) s ∧
    Claim.endsAsF0 .xor 0 (fun s => { s with b := s.b ^^^ s.a }) s

/-- not (R236; id D1): B takes its bitwise complement; A is not read. -/
def Obligations.NotComplementsB : Prop :=
  ∀ s : State, Claim.endsAsF0 .not 0 (fun s => { s with b := ~~~s.b }) s

/-- shl and shr (R238, R240, R237; ids D1): the logical shifts of B by the operand, 0 for every amount of 8 or more (direction,
fill and wide amounts are D7; log 5). -/
def Obligations.ShiftsAreLogical : Prop :=
  ∀ (amount : Byte) (s : State),
    Claim.endsAsF1 (.shl amount) (fun s => { s with b := s.b <<< amount.toNat }) s ∧
    Claim.endsAsF1 (.shr amount) (fun s => { s with b := s.b >>> amount.toNat }) s

/-- inc and dec (R242, R243; ids D1): A plus 1 and A minus 1, with 255 + 1 giving 0 and 0 - 1 giving 255. -/
def Obligations.CountersWrapModulo256 : Prop :=
  ∀ s : State,
    Claim.endsAsF0 .inc 0 (fun s => { s with a := s.a + 1 }) s ∧
    Claim.endsAsF0 .dec 0 (fun s => { s with a := s.a - 1 }) s

/-- flv (R250; id D1): the step answers a next state in which every VRAM byte is the operand and nothing else of the
registers, RAM and PROG has changed. -/
def Obligations.FlvFillsVram : Prop :=
  ∀ (value : Byte) (s : State),
    Claim.endsAsF1 (.flv value) (fun s => { s with vram := Memory.fill value }) s ∧
    ∀ addr : Byte, memRead .vram addr { s with vram := Memory.fill value } = value

/-- After flv V, rev gives V at every A (R250, R205: the source's property; ids D1). -/
def Obligations.RevAfterFlvReadsTheFill : Prop :=
  ∀ (value addr : Byte) (s : State), s.ip.toNat ≤ 253 →
    ∃ t u : State, exec (.flv value) s = .next t ∧ exec .rev { t with a := addr } = .next u ∧ u.b = value

/-- fsh, whole rule R251: opcode 25; at IP 0 to 254 Flush (OUTC 6), IP advanced by 1, HALT as it was, nothing else changed; at
IP 255 EndOfProgram and no Flush. -/
def Obligations.FshReportsFlush : Prop :=
  ∀ s : State, encode .fsh = [0x19] ∧ Claim.endsAsF0 .fsh 6 id s

/-! ## Frames over all instructions -/

/-- Only the instructions that R31 and R32 name write A and B, none writes INP (R36) or PROG (R62). -/
def Obligations.RegisterWritersAreTheNamedOnes : Prop :=
  ∀ (i : Instr) (s t : State), exec i s = .next t →
    (Claim.writesA i = false → t.a = s.a) ∧ (Claim.writesB i = false → t.b = s.b) ∧ t.inp = s.inp ∧ t.prog = s.prog

/-- An instruction that stores nothing leaves every byte of every space as it was (R70). -/
def Obligations.NonStoringInstructionsKeepMemory : Prop :=
  ∀ (i : Instr) (s t : State), Claim.stores i = false → exec i s = .next t →
    ∀ (sp : Space) (addr : Byte), memRead sp addr t = memRead sp addr s

/-- mvr, mva and mvv store at the address their target computes: every other byte of every space reads as before, and where
the step was not turned away by ArgOutOfBounds the byte stored is B for mvr and mva and the operand for mvv (R200, R202,
R204, R70). -/
def Obligations.StoringInstructionsChangeOneByte : Prop :=
  ∀ (i : Instr) (s t : State) (target : Target) (sp : Space) (addr : Byte), s.memoriesWf = true →
    Claim.storeTarget i = some target → target.storedAt s = some (sp, addr) → exec i s = .next t →
    (∀ (sq : Space) (addr' : Byte), ¬ (sq = sp ∧ addr' = addr) → memRead sq addr' t = memRead sq addr' s) ∧
    (t.outcome ≠ .argOutOfBounds →
      memRead sp addr t = Claim.storedByte s i)

/-- flv leaves every byte of PROG and RAM as it was, and where it was not turned away by ArgOutOfBounds every byte of VRAM is
the operand (R250, R60). -/
def Obligations.FlvKeepsProgAndRam : Prop :=
  ∀ (value : Byte) (s t : State), exec (.flv value) s = .next t →
    ∀ addr : Byte,
      memRead .prog addr t = memRead .prog addr s ∧ memRead .ram addr t = memRead .ram addr s ∧
      (t.outcome ≠ .argOutOfBounds → memRead .vram addr t = value)

/-! ## The step and its outcomes -/

/-- Every state has a next state: no step faults and none is refused. That a recorded outcome and a halted step are next states,
and no faults or refusals, is the MODEL'S CHOICE (log 1, log 2); that every step has an outcome to record is R300's. -/
def Obligations.EveryStepAnswersANextState : Prop := ∀ s : State, ∃ t : State, step s = .next t

/-- A step runs the decoded instruction: when the bytes of the image from IP on decode to an instruction and the block is not
halted, the step is the instruction's meaning at that state (R160). -/
def Obligations.StepRunsTheDecodedInstruction : Prop :=
  ∀ (s : State) (i : Instr) (after : List Byte), s.halt = false → decode (fetchWindow s) = .ok (i, after) →
    step s = exec i s

/-- The same from the bytes in PROG: the opcode byte at IP and, for arity 1, the operand byte at IP + 1, with IP not 255
(R151, R154, R71). -/
def Obligations.StepRunsTheBytesAtIp : Prop :=
  ∀ (s : State) (i : Instr), s.halt = false → memRead .prog s.ip s = i.opcode →
    (∀ v : Byte, i.operand? = some v → s.ip.toNat ≤ 254 ∧ memRead .prog (s.ip + 1) s = v) → step s = exec i s

/-- R305: an opcode byte of 26 or more at IP gives UnknownOp with that byte as payload, 26 to 255, and no other change (code
D4, HALT D5, payload D28: log 6). -/
def Obligations.UnknownOpcodeIsReported : Prop :=
  ∀ s : State, s.halt = false → 26 ≤ (memRead .prog s.ip s).toNat →
    step s = .next { s with outc := 5, outp := memRead .prog s.ip s, halt := true }

/-- R312 (D5): a step requested while HALT = 1 changes no state and leaves the latched outcome. -/
def Obligations.HaltedStepChangesNothing : Prop := ∀ s : State, s.halt = true → step s = .next s

/-- The outcome of every step that runs is the one the priority of R313 gives, the stages of R160 in order (D24, D1). -/
def Obligations.OutcomeFollowsThePriority : Prop :=
  ∀ s : State, s.halt = false → ∃ t : State, step s = .next t ∧ t.outcome = Claim.outcomeByPriority s

/-- The codes, payloads and halting column of the outcome encoding (R310, R311; D4, D5, D28). -/
def Obligations.OutcomeEncodingTable : Prop :=
  (StepOutcome.continue_.code, StepOutcome.continue_.halting) = (0, false) ∧
  (StepOutcome.readOutOfBounds.code, StepOutcome.readOutOfBounds.halting) = (1, true) ∧
  (StepOutcome.writeOutOfBounds.code, StepOutcome.writeOutOfBounds.halting) = (2, true) ∧
  (StepOutcome.endOfProgram.code, StepOutcome.endOfProgram.halting) = (3, true) ∧
  (StepOutcome.argOutOfBounds.code, StepOutcome.argOutOfBounds.halting) = (4, true) ∧
  (∀ op : Byte, ((StepOutcome.unknownOp op).code, (StepOutcome.unknownOp op).payload,
    (StepOutcome.unknownOp op).halting) = (5, op, true)) ∧
  (StepOutcome.flush.code, StepOutcome.flush.halting) = (6, false) ∧
  (StepOutcome.divisionByZero.code, StepOutcome.divisionByZero.halting) = (7, true) ∧
  (∀ o : StepOutcome, (∀ op : Byte, o ≠ .unknownOp op) → o.payload = 0x00)

/-- R309, R311, R313 (D4, D5, D28; order D24, D6, D9, D10; ids D1): a step that runs records the outcome that the stage order
gives, its code in OUTC, its payload in OUTP and HALT exactly when it is halting; OUTP is the opcode byte for UnknownOp and 0x00
else. -/
def Obligations.EncoderRecordsEveryStep : Prop :=
  ∀ s : State, s.halt = false → ∃ t : State, step s = .next t ∧
    t.halt = (Claim.outcomeByPriority s).halting ∧ t.outc = (Claim.outcomeByPriority s).code ∧
    t.outp = (Claim.outcomeByPriority s).payload ∧
    (t.outp ≠ 0x00 → Claim.outcomeByPriority s = .unknownOp (memRead .prog s.ip s))

/-- R314, R161: a step that ends with a halting outcome other than EndOfProgram leaves the state exactly as it was, apart from
OUTC, OUTP and HALT. -/
def Obligations.FaultOutcomesArePrecise : Prop :=
  ∀ s t : State, s.halt = false → step s = .next t → t.outcome.isFault = true →
    t = { s with outc := t.outc, outp := t.outp, halt := true }

/-- R35: in a step that runs, IP is unchanged if the step halts; else it takes the operand if the instruction transfers
control, and else it advances by 1 + arity, a sum of at most 255, so it never wraps (ids D1, halting D5, D8). -/
def Obligations.IpChangesOnlyByAdvanceOrTransfer : Prop :=
  ∀ s : State, s.halt = false → ∃ t : State, step s = .next t ∧
    let op := memRead .prog s.ip s
    let operands := if Claim.takesOperand op then 1 else 0
    (t.halt = true → t.ip = s.ip) ∧
    (t.halt = false → Claim.takesJump op s = true → s.ip.toNat ≤ 254 ∧ t.ip = memRead .prog (s.ip + 1) s) ∧
    (t.halt = false → Claim.takesJump op s = false → t.ip.toNat = s.ip.toNat + 1 + operands)

/-! ## Reset and invariants -/

/-- R350, R351 (D2, D21): the state after power-up. -/
def Obligations.ResetValues : Prop :=
  State.reset.a = 0x00 ∧ State.reset.b = 0x00 ∧ State.reset.ip = 0x00 ∧ State.reset.inp = 0x00 ∧
  State.reset.halt = false ∧ State.reset.outc = 0 ∧ State.reset.outp = 0x00 ∧
  ∀ (sp : Space) (addr : Byte), memRead sp addr State.reset = 0x00

/-- The reset state is legal, and so is the state after reset for every draw of RESET_FILL and every Program space (R11, R350;
D2). -/
def Obligations.ResetStateIsLegal : Prop :=
  State.reset.Inv ∧
  ∀ (fill : ResetFill) (prog : Memory), fill.wf = true → prog.wf = true → (State.afterReset fill prog).Inv

/-- Every step from every legal state leads to a legal state: the memories keep their canonical form, HALT agrees with OUTC,
OUTP agrees with OUTC, and no MemCopy outcome appears (R40 to R42, R301, R309 to R312; D4, D5, D28). -/
def Obligations.StepKeepsTheStateLegal : Prop := ∀ s t : State, s.Inv → step s = .next t → t.Inv

/-- Every move of the host from every legal block leads to a legal block: a transaction, a RUN of any length included, the
going on of a RUN, and a command at signal level (R320 to R329; D3, fuel log 14, `rst` log 17). -/
def Obligations.TransactionsKeepTheStateLegal : Prop :=
  (∀ (x : Transaction) (b c : Block) (r : Response), b.Inv → transact x b = .next (c, r) → c.Inv) ∧
  (∀ (fuel : Nat) (b c : Block) (r : Response), b.Inv → continueRun fuel b = .next (c, r) → c.Inv) ∧
  (∀ (fuel : Nat) (g : Signals) (b c : Block) (r : SignalReply), b.Inv → signalCommand fuel g b = .next (c, r) → c.Inv)

/-! ## Datapath and multiplexer -/

/-- The datapath that the control words of R110 drive through the multiplexer of R65 is the step of R160, from every state
(D1, D6, D12). -/
def Obligations.DatapathIsTheStep : Prop := ∀ s : State, datapathStep s = step s

/-- R70 (D12): the memory effect of every instruction that executes is that of its one data-port request, routed by the
multiplexer; the byte a read answers is what B takes, and an instruction with no request changes no memory. -/
def Obligations.OneDataRequestIsTheMemoryEffect : Prop :=
  ∀ (i : Instr) (s t : State), exec i s = .next t → t.outcome.isFault = false →
    match dataRequest s i with
    | none => ∀ sp : Space, t.space sp = s.space sp
    | some (code, access) =>
      ∃ (u : State) (v : Byte), portRequest .data code access s = .next (u, v) ∧
        (∀ sp : Space, t.space sp = u.space sp) ∧ (∀ addr : Byte, access = .read addr → t.b = v)

/-- R65 (D12, D3; refusing what a port does not make, log 12): the reserved code is refused at every port. The fetch port reads
PROG and nothing else, the data port reads and writes RAM and VRAM and fills VRAM, the host port writes PROG and reads VRAM; every
other access is refused. An answered fetch request changes nothing, an answered data request leaves PROG, an answered host request
leaves RAM and VRAM, and none changes a register or a status field. -/
def Obligations.PortsReachOnlyTheirSpaces : Prop :=
  (∀ (p : Port) (access : Access) (s : State), portRequest p 3 access s = .refused .reservedSpaceCode) ∧
  (∀ (access : Access) (s : State),
    portRequest .fetch 1 access s = .refused .noRoute ∧ portRequest .fetch 2 access s = .refused .noRoute ∧
    portRequest .data 0 access s = .refused .noRoute ∧ portRequest .host 1 access s = .refused .noRoute) ∧
  (∀ (addr v : Byte) (s : State),
    portRequest .fetch 0 (.read addr) s = .next (s, memRead .prog addr s) ∧
    portRequest .fetch 0 (.write addr v) s = .refused .noRoute ∧ portRequest .fetch 0 (.fill v) s = .refused .noRoute ∧
    portRequest .data 1 (.fill v) s = .refused .noRoute ∧
    portRequest .host 0 (.read addr) s = .refused .noRoute ∧ portRequest .host 0 (.fill v) s = .refused .noRoute ∧
    portRequest .host 2 (.write addr v) s = .refused .noRoute ∧ portRequest .host 2 (.fill v) s = .refused .noRoute ∧
    portRequest .host 2 (.read addr) s = .next (s, memRead .vram addr s)) ∧
  ∀ (p : Port) (code : BitVec 2) (access : Access) (s t : State) (v : Byte), portRequest p code access s = .next (t, v) →
    (p = .fetch → t = s) ∧ (p = .data → t.prog = s.prog) ∧ (p = .host → t.ram = s.ram ∧ t.vram = s.vram) ∧
    t.a = s.a ∧ t.b = s.b ∧ t.ip = s.ip ∧ t.inp = s.inp ∧ t.halt = s.halt ∧ t.outc = s.outc ∧ t.outp = s.outp

/-! ## Memory -/

/-- R67: MemWrite stores the byte at that index of that space and changes nothing else, and a later MemRead there returns
it. -/
def Obligations.MemWriteStoresOneByte : Prop :=
  ∀ (s : State) (sp : Space) (addr v : Byte), s.memoriesWf = true →
    memRead sp addr (memWrite sp addr v s) = v ∧
    (∀ (sq : Space) (addr' : Byte), ¬ (sq = sp ∧ addr' = addr) →
      memRead sq addr' (memWrite sp addr v s) = memRead sq addr' s) ∧
    { memWrite sp addr v s with prog := s.prog, ram := s.ram, vram := s.vram } = s

/-- Memories in canonical form that read the same at all 256 indices are equal data (the model's representation, log 11; R38). -/
def Obligations.CanonicalMemoriesAreEqualData : Prop :=
  ∀ m m' : Memory, m.wf = true → m'.wf = true → (∀ i : Nat, i < 256 → m.read i = m'.read i) → m = m'

/-- MemCopy (R69, D13): with both ranges in the space, every destination byte is the source byte as it was before the copy,
overlap included, and every other byte is unchanged; with a range past 255 it fails with the source's outcome first and the
destination's second; a count of 0 copies nothing. R69 admits counts 0 to 256 only: what a count above 256 does is the MODEL'S
CHOICE (log 13). -/
def Obligations.MemCopyCopiesThroughATemporary : Prop :=
  ∀ (m : Memory) (source dest : Byte) (num : Nat), m.wf = true →
    (source.toNat + num ≤ 256 → dest.toNat + num ≤ 256 →
      ∃ m' : Memory, m.copy source dest num = .ok m' ∧
        ∀ i : Nat, i < 256 →
          m'.read i =
            if dest.toNat ≤ i ∧ i < dest.toNat + num then m.read (source.toNat + (i - dest.toNat)) else m.read i) ∧
    (256 < source.toNat + num → m.copy source dest num = .error .readOutOfBounds) ∧
    (source.toNat + num ≤ 256 → 256 < dest.toNat + num → m.copy source dest num = .error .writeOutOfBounds)

/-! ## Runs and the host -/

/-- R162, R312 (D5): a run requested while HALT = 1 returns the same state at once, with no fuel at all; from a legal state, a
run that returns has ended with an outcome other than Continue (fuel log 14). -/
def Obligations.RunReturnsAtABoundary : Prop :=
  ∀ (fuel : Nat) (s : State),
    (s.halt = true → runToBoundary fuel s = .next (.returned s)) ∧
    ∀ t : State, s.Inv → runToBoundary fuel s = .next (.returned t) → t.outcome ≠ .continue_

/-- A run that has returned returns the same state under any larger fuel: the fuel is no part of the hardware (R163; D17). -/
def Obligations.RunDoesNotDependOnFuel : Prop :=
  ∀ (fuel more : Nat) (s t : State), runToBoundary fuel s = .next (.returned t) →
    runToBoundary (fuel + more) s = .next (.returned t)

/-- R358, R36, R62: INP and PROG are constant for the whole of a run, wherever it has come to (fuel log 14), and while a RUN is
in progress no transaction is given a move (R328, D27; that this is a refusal is log 14's). -/
def Obligations.RunKeepsInpAndProg : Prop :=
  (∀ (fuel : Nat) (s t : State),
    runToBoundary fuel s = .next (.returned t) ∨ runToBoundary fuel s = .next (.unfinished t) →
    t.inp = s.inp ∧ t.prog = s.prog) ∧
  (∀ (fuel : Nat) (s : State) (b : Block), transact (.run fuel) (.idle s) = .next (b, .running) →
    b.busy = true ∧ b.state.inp = s.inp ∧ b.state.prog = s.prog) ∧
  ∀ (x : Transaction) (b : Block), b.busy = true → transact x b = .refused .transactionInProgress

/-- R322: INP_WRITE to an idle block stores the whole byte and changes nothing else. -/
def Obligations.InpWriteChangesOnlyInp : Prop :=
  ∀ (v : Byte) (s : State), transact (.inpWrite v) (.idle s) = .next (.idle { s with inp := v }, .done)

/-- R321 (D20): LOAD of a 256-byte image stores byte i at PROG index i and changes nothing else; an image of another length is
refused (the model's choice, log 15). -/
def Obligations.LoadStoresTheImage : Prop :=
  ∀ (image : List Byte) (s : State), s.prog.wf = true →
    (image.length = 256 →
      ∃ t : State, transact (.load image) (.idle s) = .next (.idle t, .done) ∧
        (∀ i : Fin 256, image[i.val]? = some (t.prog.read i.val)) ∧ { t with prog := s.prog } = s) ∧
    (image.length ≠ 256 → transact (.load image) (.idle s) = .refused .malformedImage)

/-- R327, R350, R353 (D2): RESET leaves PROG alone and puts every other field at its reset value. -/
def Obligations.ResetKeepsTheProgram : Prop :=
  ∀ s : State, transact .reset (.idle s) = .next (.idle { State.reset with prog := s.prog }, .done)

/-- R326, R324 (D18, D29): the read transactions return the bytes named and change nothing, and the 256 FRAME_READs of a frame
return the 256 VRAM bytes in index order (R306, R354). -/
def Obligations.ReadTransactionsChangeNothing : Prop :=
  ∀ s : State,
    transact (.stateRead 0) (.idle s) = .next (.idle s, .data s.a) ∧
    transact (.stateRead 1) (.idle s) = .next (.idle s, .data s.b) ∧
    transact (.stateRead 2) (.idle s) = .next (.idle s, .data s.ip) ∧
    transact (.stateRead 3) (.idle s) = .next (.idle s, .data s.inp) ∧
    transact (.stateRead 4) (.idle s) = .next (.idle s, .data (0#4 ++ BitVec.ofBool s.halt ++ s.outc)) ∧
    transact (.stateRead 5) (.idle s) = .next (.idle s, .data s.outp) ∧
    (∀ sel : Byte, 6 ≤ sel.toNat → transact (.stateRead sel) (.idle s) = .next (.idle s, .data 0x00)) ∧
    (∀ addr : Byte, transact (.frameRead addr) (.idle s) = .next (.idle s, .data (s.vram.read addr.toNat))) ∧
    transactAll frameReads (.idle s) = .next (.idle s, s.frame.map Response.data)

/-! ## Platform and assembler -/

/-- R331: the index of pixel (x, y) is x + 16 * y; index i holds the pixel at x = i mod 16, y = floor(i / 16). -/
def Obligations.PixelIndexIsRowMajor : Prop :=
  (∀ x y : Fin 16, (pixelIndex x y).toNat = x.val + 16 * y.val) ∧
  (∀ index : Byte, ∃ x y : Fin 16, pixelIndex x y = index ∧ x.val = index.toNat % 16 ∧ y.val = index.toNat / 16 ∧
    pixelX index = x.val ∧ pixelY index = y.val)

/-- R128, R126: every source text that assembles gives an image of exactly 256 bytes. -/
def Obligations.AssembledImageIs256Bytes : Prop :=
  ∀ (source : List Char) (image : List Byte), assemble source = .ok image → image.length = 256

/-- Every sequence of instructions that fits the image, written one a line with decimal operands, assembles to its encoding
followed by zeros (R121 to R128; lexical form D23). -/
def Obligations.SourceTextAssemblesToItsEncoding : Prop :=
  ∀ is : List Instr, (encodeAll is).length ≤ 256 →
    assemble (Claim.sourceText is) = .ok (encodeAll is ++ List.replicate (256 - (encodeAll is).length) 0x00)
end

