-- ==== Sys2Proof/Laws/State.lean ====
section
/-! SUPPORT. One lemma per field per update of the state, so that no proof unfolds a record update. -/

namespace Sys2Proof.Machine

variable (s : State)


/-! ## Registers -/

@[simp] theorem State.setA_a (v : Byte) : (s.setA v).a = v := rfl
@[simp] theorem State.setA_b (v : Byte) : (s.setA v).b = s.b := rfl
@[simp] theorem State.setA_ip (v : Byte) : (s.setA v).ip = s.ip := rfl
@[simp] theorem State.setA_inp (v : Byte) : (s.setA v).inp = s.inp := rfl
@[simp] theorem State.setA_prog (v : Byte) : (s.setA v).prog = s.prog := rfl
@[simp] theorem State.setA_ram (v : Byte) : (s.setA v).ram = s.ram := rfl
@[simp] theorem State.setA_vram (v : Byte) : (s.setA v).vram = s.vram := rfl
@[simp] theorem State.setA_halt (v : Byte) : (s.setA v).halt = s.halt := rfl
@[simp] theorem State.setA_outc (v : Byte) : (s.setA v).outc = s.outc := rfl
@[simp] theorem State.setA_outp (v : Byte) : (s.setA v).outp = s.outp := rfl

@[simp] theorem State.setB_a (v : Byte) : (s.setB v).a = s.a := rfl
@[simp] theorem State.setB_b (v : Byte) : (s.setB v).b = v := rfl
@[simp] theorem State.setB_ip (v : Byte) : (s.setB v).ip = s.ip := rfl
@[simp] theorem State.setB_inp (v : Byte) : (s.setB v).inp = s.inp := rfl
@[simp] theorem State.setB_prog (v : Byte) : (s.setB v).prog = s.prog := rfl
@[simp] theorem State.setB_ram (v : Byte) : (s.setB v).ram = s.ram := rfl
@[simp] theorem State.setB_vram (v : Byte) : (s.setB v).vram = s.vram := rfl
@[simp] theorem State.setB_halt (v : Byte) : (s.setB v).halt = s.halt := rfl
@[simp] theorem State.setB_outc (v : Byte) : (s.setB v).outc = s.outc := rfl
@[simp] theorem State.setB_outp (v : Byte) : (s.setB v).outp = s.outp := rfl

@[simp] theorem State.setIp_a (v : Byte) : (s.setIp v).a = s.a := rfl
@[simp] theorem State.setIp_b (v : Byte) : (s.setIp v).b = s.b := rfl
@[simp] theorem State.setIp_ip (v : Byte) : (s.setIp v).ip = v := rfl
@[simp] theorem State.setIp_inp (v : Byte) : (s.setIp v).inp = s.inp := rfl
@[simp] theorem State.setIp_prog (v : Byte) : (s.setIp v).prog = s.prog := rfl
@[simp] theorem State.setIp_ram (v : Byte) : (s.setIp v).ram = s.ram := rfl
@[simp] theorem State.setIp_vram (v : Byte) : (s.setIp v).vram = s.vram := rfl
@[simp] theorem State.setIp_halt (v : Byte) : (s.setIp v).halt = s.halt := rfl
@[simp] theorem State.setIp_outc (v : Byte) : (s.setIp v).outc = s.outc := rfl
@[simp] theorem State.setIp_outp (v : Byte) : (s.setIp v).outp = s.outp := rfl

@[simp] theorem State.swapAB_a : (s.swapAB).a = s.b := rfl
@[simp] theorem State.swapAB_b : (s.swapAB).b = s.a := rfl
@[simp] theorem State.swapAB_ip : (s.swapAB).ip = s.ip := rfl
@[simp] theorem State.swapAB_inp : (s.swapAB).inp = s.inp := rfl
@[simp] theorem State.swapAB_prog : (s.swapAB).prog = s.prog := rfl
@[simp] theorem State.swapAB_ram : (s.swapAB).ram = s.ram := rfl
@[simp] theorem State.swapAB_vram : (s.swapAB).vram = s.vram := rfl
@[simp] theorem State.swapAB_halt : (s.swapAB).halt = s.halt := rfl
@[simp] theorem State.swapAB_outc : (s.swapAB).outc = s.outc := rfl
@[simp] theorem State.swapAB_outp : (s.swapAB).outp = s.outp := rfl

@[simp] theorem State.binaryAlu_a (f : Byte → Byte → Byte) : (s.binaryAlu f).a = s.a := rfl
@[simp] theorem State.binaryAlu_b (f : Byte → Byte → Byte) : (s.binaryAlu f).b = f s.b s.a := rfl
@[simp] theorem State.binaryAlu_ip (f : Byte → Byte → Byte) : (s.binaryAlu f).ip = s.ip := rfl
@[simp] theorem State.binaryAlu_inp (f : Byte → Byte → Byte) : (s.binaryAlu f).inp = s.inp := rfl
@[simp] theorem State.binaryAlu_prog (f : Byte → Byte → Byte) : (s.binaryAlu f).prog = s.prog := rfl
@[simp] theorem State.binaryAlu_ram (f : Byte → Byte → Byte) : (s.binaryAlu f).ram = s.ram := rfl
@[simp] theorem State.binaryAlu_vram (f : Byte → Byte → Byte) : (s.binaryAlu f).vram = s.vram := rfl
@[simp] theorem State.binaryAlu_halt (f : Byte → Byte → Byte) : (s.binaryAlu f).halt = s.halt := rfl
@[simp] theorem State.binaryAlu_outc (f : Byte → Byte → Byte) : (s.binaryAlu f).outc = s.outc := rfl
@[simp] theorem State.binaryAlu_outp (f : Byte → Byte → Byte) : (s.binaryAlu f).outp = s.outp := rfl

@[simp] theorem State.inpWrite_a (v : Byte) : (inpWrite v s).a = s.a := rfl
@[simp] theorem State.inpWrite_b (v : Byte) : (inpWrite v s).b = s.b := rfl
@[simp] theorem State.inpWrite_ip (v : Byte) : (inpWrite v s).ip = s.ip := rfl
@[simp] theorem State.inpWrite_inp (v : Byte) : (inpWrite v s).inp = v := rfl
@[simp] theorem State.inpWrite_prog (v : Byte) : (inpWrite v s).prog = s.prog := rfl
@[simp] theorem State.inpWrite_ram (v : Byte) : (inpWrite v s).ram = s.ram := rfl
@[simp] theorem State.inpWrite_vram (v : Byte) : (inpWrite v s).vram = s.vram := rfl
@[simp] theorem State.inpWrite_halt (v : Byte) : (inpWrite v s).halt = s.halt := rfl
@[simp] theorem State.inpWrite_outc (v : Byte) : (inpWrite v s).outc = s.outc := rfl
@[simp] theorem State.inpWrite_outp (v : Byte) : (inpWrite v s).outp = s.outp := rfl

/-! ## Spaces -/

@[simp] theorem State.setSpace_prog_a (m : Memory) : (s.setSpace .prog m).a = s.a := rfl
@[simp] theorem State.setSpace_prog_b (m : Memory) : (s.setSpace .prog m).b = s.b := rfl
@[simp] theorem State.setSpace_prog_ip (m : Memory) : (s.setSpace .prog m).ip = s.ip := rfl
@[simp] theorem State.setSpace_prog_inp (m : Memory) : (s.setSpace .prog m).inp = s.inp := rfl
@[simp] theorem State.setSpace_prog_prog (m : Memory) : (s.setSpace .prog m).prog = m := rfl
@[simp] theorem State.setSpace_prog_ram (m : Memory) : (s.setSpace .prog m).ram = s.ram := rfl
@[simp] theorem State.setSpace_prog_vram (m : Memory) : (s.setSpace .prog m).vram = s.vram := rfl
@[simp] theorem State.setSpace_prog_halt (m : Memory) : (s.setSpace .prog m).halt = s.halt := rfl
@[simp] theorem State.setSpace_prog_outc (m : Memory) : (s.setSpace .prog m).outc = s.outc := rfl
@[simp] theorem State.setSpace_prog_outp (m : Memory) : (s.setSpace .prog m).outp = s.outp := rfl

@[simp] theorem State.setSpace_ram_a (m : Memory) : (s.setSpace .ram m).a = s.a := rfl
@[simp] theorem State.setSpace_ram_b (m : Memory) : (s.setSpace .ram m).b = s.b := rfl
@[simp] theorem State.setSpace_ram_ip (m : Memory) : (s.setSpace .ram m).ip = s.ip := rfl
@[simp] theorem State.setSpace_ram_inp (m : Memory) : (s.setSpace .ram m).inp = s.inp := rfl
@[simp] theorem State.setSpace_ram_prog (m : Memory) : (s.setSpace .ram m).prog = s.prog := rfl
@[simp] theorem State.setSpace_ram_ram (m : Memory) : (s.setSpace .ram m).ram = m := rfl
@[simp] theorem State.setSpace_ram_vram (m : Memory) : (s.setSpace .ram m).vram = s.vram := rfl
@[simp] theorem State.setSpace_ram_halt (m : Memory) : (s.setSpace .ram m).halt = s.halt := rfl
@[simp] theorem State.setSpace_ram_outc (m : Memory) : (s.setSpace .ram m).outc = s.outc := rfl
@[simp] theorem State.setSpace_ram_outp (m : Memory) : (s.setSpace .ram m).outp = s.outp := rfl

@[simp] theorem State.setSpace_vram_a (m : Memory) : (s.setSpace .vram m).a = s.a := rfl
@[simp] theorem State.setSpace_vram_b (m : Memory) : (s.setSpace .vram m).b = s.b := rfl
@[simp] theorem State.setSpace_vram_ip (m : Memory) : (s.setSpace .vram m).ip = s.ip := rfl
@[simp] theorem State.setSpace_vram_inp (m : Memory) : (s.setSpace .vram m).inp = s.inp := rfl
@[simp] theorem State.setSpace_vram_prog (m : Memory) : (s.setSpace .vram m).prog = s.prog := rfl
@[simp] theorem State.setSpace_vram_ram (m : Memory) : (s.setSpace .vram m).ram = s.ram := rfl
@[simp] theorem State.setSpace_vram_vram (m : Memory) : (s.setSpace .vram m).vram = m := rfl
@[simp] theorem State.setSpace_vram_halt (m : Memory) : (s.setSpace .vram m).halt = s.halt := rfl
@[simp] theorem State.setSpace_vram_outc (m : Memory) : (s.setSpace .vram m).outc = s.outc := rfl
@[simp] theorem State.setSpace_vram_outp (m : Memory) : (s.setSpace .vram m).outp = s.outp := rfl

@[simp] theorem State.space_prog : s.space .prog = s.prog := rfl
@[simp] theorem State.space_ram : s.space .ram = s.ram := rfl
@[simp] theorem State.space_vram : s.space .vram = s.vram := rfl

@[simp] theorem State.setSpace_a (sp : Space) (m : Memory) : (s.setSpace sp m).a = s.a := by cases sp <;> rfl
@[simp] theorem State.setSpace_b (sp : Space) (m : Memory) : (s.setSpace sp m).b = s.b := by cases sp <;> rfl
@[simp] theorem State.setSpace_ip (sp : Space) (m : Memory) : (s.setSpace sp m).ip = s.ip := by cases sp <;> rfl
@[simp] theorem State.setSpace_inp (sp : Space) (m : Memory) : (s.setSpace sp m).inp = s.inp := by cases sp <;> rfl
@[simp] theorem State.setSpace_halt (sp : Space) (m : Memory) : (s.setSpace sp m).halt = s.halt := by cases sp <;> rfl
@[simp] theorem State.setSpace_outc (sp : Space) (m : Memory) : (s.setSpace sp m).outc = s.outc := by cases sp <;> rfl
@[simp] theorem State.setSpace_outp (sp : Space) (m : Memory) : (s.setSpace sp m).outp = s.outp := by cases sp <;> rfl

/-- The space written holds the memory given. -/
@[simp] theorem State.space_setSpace_same (sp : Space) (m : Memory) : (s.setSpace sp m).space sp = m := by
  cases sp <;> rfl

/-- The other two spaces are untouched (R60). -/
theorem State.space_setSpace_other (sp sq : Space) (m : Memory) (h : sq ≠ sp) :
    (s.setSpace sp m).space sq = s.space sq := by
  cases sp <;> cases sq <;> first | rfl | exact absurd rfl h

@[simp] theorem memWrite_a (sp : Space) (addr v : Byte) : (memWrite sp addr v s).a = s.a := s.setSpace_a sp _
@[simp] theorem memWrite_b (sp : Space) (addr v : Byte) : (memWrite sp addr v s).b = s.b := s.setSpace_b sp _
@[simp] theorem memWrite_ip (sp : Space) (addr v : Byte) : (memWrite sp addr v s).ip = s.ip := s.setSpace_ip sp _
@[simp] theorem memWrite_inp (sp : Space) (addr v : Byte) : (memWrite sp addr v s).inp = s.inp := s.setSpace_inp sp _
@[simp] theorem memWrite_halt (sp : Space) (addr v : Byte) : (memWrite sp addr v s).halt = s.halt := s.setSpace_halt sp _
@[simp] theorem memWrite_outc (sp : Space) (addr v : Byte) : (memWrite sp addr v s).outc = s.outc := s.setSpace_outc sp _
@[simp] theorem memWrite_outp (sp : Space) (addr v : Byte) : (memWrite sp addr v s).outp = s.outp := s.setSpace_outp sp _

@[simp] theorem memFill_a (sp : Space) (v : Byte) : (memFill sp v s).a = s.a := s.setSpace_a sp _
@[simp] theorem memFill_b (sp : Space) (v : Byte) : (memFill sp v s).b = s.b := s.setSpace_b sp _
@[simp] theorem memFill_ip (sp : Space) (v : Byte) : (memFill sp v s).ip = s.ip := s.setSpace_ip sp _
@[simp] theorem memFill_inp (sp : Space) (v : Byte) : (memFill sp v s).inp = s.inp := s.setSpace_inp sp _
@[simp] theorem memFill_halt (sp : Space) (v : Byte) : (memFill sp v s).halt = s.halt := s.setSpace_halt sp _
@[simp] theorem memFill_outc (sp : Space) (v : Byte) : (memFill sp v s).outc = s.outc := s.setSpace_outc sp _
@[simp] theorem memFill_outp (sp : Space) (v : Byte) : (memFill sp v s).outp = s.outp := s.setSpace_outp sp _

/-! ## The ends of a step -/

@[simp] theorem State.record_a (o : StepOutcome) : (s.record o).a = s.a := rfl
@[simp] theorem State.record_b (o : StepOutcome) : (s.record o).b = s.b := rfl
@[simp] theorem State.record_ip (o : StepOutcome) : (s.record o).ip = s.ip := rfl
@[simp] theorem State.record_inp (o : StepOutcome) : (s.record o).inp = s.inp := rfl
@[simp] theorem State.record_prog (o : StepOutcome) : (s.record o).prog = s.prog := rfl
@[simp] theorem State.record_ram (o : StepOutcome) : (s.record o).ram = s.ram := rfl
@[simp] theorem State.record_vram (o : StepOutcome) : (s.record o).vram = s.vram := rfl
@[simp] theorem State.record_halt (o : StepOutcome) : (s.record o).halt = (s.halt || o.halting) := rfl
@[simp] theorem State.record_outc (o : StepOutcome) : (s.record o).outc = o.code := rfl
@[simp] theorem State.record_outp (o : StepOutcome) : (s.record o).outp = o.payload := rfl

@[simp] theorem State.transfer_a (target : Byte) : (s.transfer target).a = s.a := rfl
@[simp] theorem State.transfer_b (target : Byte) : (s.transfer target).b = s.b := rfl
@[simp] theorem State.transfer_ip (target : Byte) : (s.transfer target).ip = target := rfl
@[simp] theorem State.transfer_inp (target : Byte) : (s.transfer target).inp = s.inp := rfl
@[simp] theorem State.transfer_prog (target : Byte) : (s.transfer target).prog = s.prog := rfl
@[simp] theorem State.transfer_ram (target : Byte) : (s.transfer target).ram = s.ram := rfl
@[simp] theorem State.transfer_vram (target : Byte) : (s.transfer target).vram = s.vram := rfl
@[simp] theorem State.transfer_halt (target : Byte) : (s.transfer target).halt = (s.halt || false) := rfl
@[simp] theorem State.transfer_outc (target : Byte) : (s.transfer target).outc = 0 := rfl
@[simp] theorem State.transfer_outp (target : Byte) : (s.transfer target).outp = 0x00 := rfl

/-! ## Reset -/

@[simp] theorem State.resetBlock_a : (resetBlock s).a = 0x00 := rfl
@[simp] theorem State.resetBlock_b : (resetBlock s).b = 0x00 := rfl
@[simp] theorem State.resetBlock_ip : (resetBlock s).ip = 0x00 := rfl
@[simp] theorem State.resetBlock_inp : (resetBlock s).inp = 0x00 := rfl
@[simp] theorem State.resetBlock_prog : (resetBlock s).prog = s.prog := rfl
@[simp] theorem State.resetBlock_ram : (resetBlock s).ram = [] := rfl
@[simp] theorem State.resetBlock_vram : (resetBlock s).vram = [] := rfl
@[simp] theorem State.resetBlock_halt : (resetBlock s).halt = false := rfl
@[simp] theorem State.resetBlock_outc : (resetBlock s).outc = 0 := rfl
@[simp] theorem State.resetBlock_outp : (resetBlock s).outp = 0x00 := rfl

end Sys2Proof.Machine
end

