-- ==== Sys2Proof/Laws/Ops.lean ====
section
/-! SUPPORT. What each shared operation can do, said once: the ends of a step, the shapes of a step, and the step. -/

namespace Sys2Proof.Machine

/-! ## The encoder -/

/-- Reading back the outcome that a state has recorded. -/
@[simp] theorem State.record_outcome (s : State) (o : StepOutcome) : (s.record o).outcome = o := by
  cases o <;> rfl

/-- The encoding of an outcome loses nothing (R310). -/
theorem StepOutcome.ofCode_code (o : StepOutcome) : StepOutcome.ofCode o.code o.payload = o := by
  cases o <;> rfl

/-- Recording an outcome changes nothing but OUTC, OUTP and HALT (R309). -/
theorem State.record_frame (s : State) (o : StepOutcome) :
    (s.record o).a = s.a ∧ (s.record o).b = s.b ∧ (s.record o).ip = s.ip ∧ (s.record o).inp = s.inp ∧
      ∀ sp, (s.record o).space sp = s.space sp :=
  ⟨rfl, rfl, rfl, rfl, fun sp => by cases sp <;> rfl⟩

/-! ## The advance -/

/-- An advance that fits (R157, R159). -/
theorem State.advance_fits {s : State} {arity : Nat} {report : StepOutcome} (h : s.ip.toNat + 1 + arity ≤ 255) :
    s.advance arity report = (s.setIp (trunc8 (s.ip.toNat + 1 + arity))).record report := if_pos h

/-- An advance past the image (R158). -/
theorem State.advance_ends {s : State} {arity : Nat} {report : StepOutcome} (h : 255 < s.ip.toNat + 1 + arity) :
    s.advance arity report = s.record .endOfProgram := if_neg (by omega)

/-- An advance changes nothing but IP, OUTC, OUTP and HALT. -/
theorem State.advance_frame (s : State) (arity : Nat) (report : StepOutcome) :
    (s.advance arity report).a = s.a ∧ (s.advance arity report).b = s.b ∧ (s.advance arity report).inp = s.inp ∧
      ∀ sp, (s.advance arity report).space sp = s.space sp := by
  unfold State.advance
  simp only
  split <;> exact ⟨rfl, rfl, rfl, fun sp => by cases sp <;> rfl⟩

/-- The outcome of an advance is the one reported, or EndOfProgram. -/
theorem State.advance_outcome (s : State) (arity : Nat) (report : StepOutcome) :
    (s.advance arity report).outcome = if s.ip.toNat + 1 + arity ≤ 255 then report else .endOfProgram := by
  unfold State.advance
  simp only
  split <;> simp

/-! ## The shapes of a step -/

/-- A sequential instruction either raises ArgOutOfBounds or advances from its effect. -/
theorem runSequential_cases {arity : Nat} {report : StepOutcome} {effect : State → State} {s t : State}
    (h : runSequential arity report effect s = .next t) :
    (operandInBounds arity s = true ∧ t = (effect s).advance arity report) ∨
      (operandInBounds arity s = false ∧ t = s.record .argOutOfBounds) := by
  unfold runSequential at h
  split at h
  · exact .inl ⟨‹_›, (Host.Outcome.next.inj h).symm⟩
  · exact .inr ⟨(Bool.not_eq_true _).mp ‹_›, (Host.Outcome.next.inj h).symm⟩

/-- A taken transfer either raises ArgOutOfBounds or sets IP. -/
theorem runTransfer_cases {target : Byte} {s t : State} (h : runTransfer target s = .next t) :
    (operandInBounds 1 s = true ∧ t = s.transfer target) ∨
      (operandInBounds 1 s = false ∧ t = s.record .argOutOfBounds) := by
  unfold runTransfer at h
  split at h
  · exact .inl ⟨‹_›, (Host.Outcome.next.inj h).symm⟩
  · exact .inr ⟨(Bool.not_eq_true _).mp ‹_›, (Host.Outcome.next.inj h).symm⟩

/-- An arity-0 instruction always passes the bounds check (R153). -/
@[simp] theorem operandInBounds_zero (s : State) : operandInBounds 0 s = true := by
  have := s.ip.isLt
  simp only [operandInBounds, Nat.add_zero, decide_eq_true_eq]
  omega

/-- An arity-1 instruction passes the bounds check except at IP = 255 (R153). -/
theorem operandInBounds_one {s : State} : operandInBounds 1 s = true ↔ s.ip.toNat ≠ 255 := by
  have := s.ip.isLt
  simp only [operandInBounds, decide_eq_true_eq]
  omega

/-! ## The step -/

/-- What a step can do: nothing while halted, raise what the stages before execution raise, or execute. -/
theorem step_cases (s : State) :
    (s.halt = true ∧ step s = .next s) ∨
      (s.halt = false ∧ ∃ o, fetchDecode s = .raised o ∧ step s = .next (s.record o)) ∨
      (s.halt = false ∧ ∃ i, fetchDecode s = .instruction i ∧ step s = exec i s) := by
  unfold step
  cases hh : s.halt with
  | true => exact .inl ⟨rfl, rfl⟩
  | false =>
    cases hf : fetchDecode s with
    | raised o => exact .inr (.inl ⟨rfl, o, rfl, rfl⟩)
    | instruction i => exact .inr (.inr ⟨rfl, i, rfl, rfl⟩)

/-- The stages before execution raise only UnknownOp and ArgOutOfBounds (R151, R153). -/
theorem fetchDecode_raised {s : State} {o : StepOutcome} (h : fetchDecode s = .raised o) :
    (o = .unknownOp (memRead .prog s.ip s) ∧ decodeOpcode (memRead .prog s.ip s) = none) ∨
      (o = .argOutOfBounds ∧ operandInBounds 1 s = false) := by
  simp only [fetchDecode] at h
  split at h
  · exact .inl ⟨(Fetched.raised.inj h).symm, ‹_›⟩
  · cases h
  · split at h
    · cases h
    · exact .inr ⟨(Fetched.raised.inj h).symm, (Bool.not_eq_true _).mp ‹_›⟩

end Sys2Proof.Machine
end

