-- ==== Sys2Proof/Laws/Datapath.lean ====
section
/-! SUPPORT. The datapath's stages, said once: what its fetches answer, and what is left of its step after them. -/

namespace Sys2Proof.Machine

/-- A fetch-port read of PROG answers the byte and changes nothing (R65, R66). -/
theorem viaPort_fetch (s : State) (addr : Byte) (rest : State → Byte → Answer) :
    viaPort .fetch (some (0, .read addr)) s rest = rest s (memRead .prog addr s) := rfl

/-- A running datapath step with its fetches done. -/
theorem datapathStep_running {s : State} (h : s.halt = false) :
    datapathStep s =
      let w := controlWord (memRead .prog s.ip s)
      if w.out = .unknownOp then raise (.unknownOp (memRead .prog s.ip s)) s
      else if operandInBounds (w.len - 1) s then
        w.execute (if w.len = 2 then memRead .prog (trunc8 (s.ip.toNat + 1)) s else 0x00) s
      else raise .argOutOfBounds s := by
  unfold datapathStep
  rw [h, if_neg (by decide), viaPort_fetch]
  by_cases hl : (controlWord (memRead .prog s.ip s)).len = 2
  · simp only [hl, if_true, viaPort_fetch]
  · simp only [hl, if_false, viaPort]

/-- The control word of an illegal opcode byte (R110, last row). -/
theorem controlWord_unknown {op : Byte} (h : 26 ≤ op.toNat) : (controlWord op).out = .unknownOp := by
  unfold controlWord
  split <;> first | omega | rfl

/-- An illegal opcode byte has no catalog row (R105). -/
theorem decodeOpcode_unknown {op : Byte} (h : 26 ≤ op.toNat) : decodeOpcode op = none := by
  unfold decodeOpcode catalog
  split <;> first | omega | rfl

end Sys2Proof.Machine
end

