-- ==== Sys2Proof/Laws/Memory.lean ====
section
/-! SUPPORT. The laws of one memory and of the access primitives: read after write, what a write leaves alone, the fill, and
that every operation keeps the canonical form. -/

namespace Sys2Proof.Machine

namespace Memory

/-! ## Canonical form -/

theorem wfFrom_nil (lo : Nat) : Memory.wfFrom lo [] = true := rfl

theorem wfFrom_cons {lo k : Nat} {v : Byte} {rest : Memory} :
    Memory.wfFrom lo ((k, v) :: rest) = true ↔
      lo ≤ k ∧ k < spaceSize ∧ v ≠ unlistedByte ∧ Memory.wfFrom (k + 1) rest = true := by
  simp [Memory.wfFrom, and_assoc]

/-- A memory canonical from an index on is canonical from any earlier one. -/
theorem wfFrom_mono {lo lo' : Nat} (h : lo' ≤ lo) {m : Memory} (hm : Memory.wfFrom lo m = true) :
    Memory.wfFrom lo' m = true := by
  cases m with
  | nil => rfl
  | cons p rest =>
    obtain ⟨k, v⟩ := p
    rw [wfFrom_cons] at hm ⊢
    exact ⟨h.trans hm.1, hm.2⟩

/-- Below the first listed index a canonical memory reads as unlisted. -/
theorem read_below {lo i : Nat} {m : Memory} (hm : Memory.wfFrom lo m = true) (h : i < lo) :
    m.read i = unlistedByte := by
  induction m generalizing lo with
  | nil => rfl
  | cons p rest ih =>
    obtain ⟨k, v⟩ := p
    rw [wfFrom_cons] at hm
    have hk : k ≠ i := by omega
    simp only [Memory.read, if_neg hk]
    exact ih hm.2.2.2 (by omega)

/-- At and above 256 a canonical memory reads as unlisted. -/
theorem read_outside {lo i : Nat} {m : Memory} (hm : Memory.wfFrom lo m = true) (h : spaceSize ≤ i) :
    m.read i = unlistedByte := by
  induction m generalizing lo with
  | nil => rfl
  | cons p rest ih =>
    obtain ⟨k, v⟩ := p
    rw [wfFrom_cons] at hm
    have hk : k ≠ i := by omega
    simp only [Memory.read, if_neg hk]
    exact ih hm.2.2.2

/-- A write keeps the canonical form. -/
theorem write_wfFrom {lo i : Nat} {v : Byte} {m : Memory} (hm : Memory.wfFrom lo m = true) (hlo : lo ≤ i)
    (hi : i < spaceSize) : Memory.wfFrom lo (m.write i v) = true := by
  induction m generalizing lo with
  | nil =>
    unfold Memory.write
    split
    · rfl
    · rename_i hv
      exact wfFrom_cons.2 ⟨hlo, hi, hv, rfl⟩
  | cons p rest ih =>
    obtain ⟨k, w⟩ := p
    have hc := wfFrom_cons.1 hm
    unfold Memory.write
    by_cases h1 : i < k
    · rw [if_pos h1]
      by_cases hv : v = unlistedByte
      · rw [if_pos hv]; exact hm
      · rw [if_neg hv]
        exact wfFrom_cons.2 ⟨hlo, hi, hv, wfFrom_cons.2 ⟨h1, hc.2⟩⟩
    · rw [if_neg h1]
      by_cases h2 : i = k
      · rw [if_pos h2]
        by_cases hv : v = unlistedByte
        · rw [if_pos hv]; exact wfFrom_mono (by omega) hc.2.2.2
        · rw [if_neg hv]
          exact wfFrom_cons.2 ⟨hlo, hi, hv, h2 ▸ hc.2.2.2⟩
      · rw [if_neg h2]
        exact wfFrom_cons.2 ⟨hc.1, hc.2.1, hc.2.2.1, ih hc.2.2.2 (by omega)⟩

/-- A write at an index in range keeps a memory well formed. -/
theorem write_wf {i : Nat} {v : Byte} {m : Memory} (hm : m.wf = true) (hi : i < spaceSize) :
    (m.write i v).wf = true := write_wfFrom hm (Nat.zero_le i) hi

theorem run_wfFrom {v : Byte} (hv : v ≠ unlistedByte) :
    ∀ {n lo : Nat}, lo + n ≤ spaceSize → Memory.wfFrom lo (Memory.run v n lo) = true
  | 0, _, _ => rfl
  | _ + 1, _, h => wfFrom_cons.2 ⟨le_refl _, by omega, hv, run_wfFrom hv (by omega)⟩

/-- A filled memory is well formed. -/
theorem fill_wf (v : Byte) : (Memory.fill v).wf = true := by
  unfold Memory.fill
  split
  · rfl
  · rename_i hv
    exact run_wfFrom hv (by decide)

/-- Storing a byte sequence that ends in range keeps a memory well formed. -/
theorem writeRange_wf :
    ∀ {bytes : List Byte} {i : Nat} {m : Memory}, m.wf = true → i + bytes.length ≤ spaceSize →
      (m.writeRange i bytes).wf = true
  | [], _, _, hm, _ => hm
  | v :: rest, i, m, hm, h => by
    have hl : (v :: rest).length = rest.length + 1 := rfl
    exact writeRange_wf (bytes := rest) (write_wf hm (by omega)) (by omega)

theorem readRange_length (m : Memory) : ∀ (n i : Nat), (m.readRange n i).length = n
  | 0, _ => rfl
  | n + 1, i => congrArg (· + 1) (readRange_length m n (i + 1))

/-- A MemCopy that answers a memory keeps the canonical form (R69). -/
theorem copy_wf {m m' : Memory} {source dest : Byte} {num : Nat} (hm : m.wf = true)
    (h : m.copy source dest num = .ok m') : m'.wf = true := by
  unfold Memory.copy at h
  split at h
  · cases h
  · split at h
    · cases h
    · cases h
      have hd := dest.isLt
      have hs : spaceSize = 256 := rfl
      refine writeRange_wf hm ?_
      rw [readRange_length]
      omega

/-! ## Reading back -/

theorem read_write_lemma {lo i j : Nat} {v : Byte} {m : Memory} (hm : Memory.wfFrom lo m = true) :
    (m.write i v).read j = if i = j then v else m.read j := by
  induction m generalizing lo with
  | nil =>
    unfold Memory.write
    by_cases hv : v = unlistedByte <;> by_cases hij : i = j <;> simp [Memory.read, hv, hij]
  | cons p rest ih =>
    obtain ⟨k, w⟩ := p
    have hc := wfFrom_cons.1 hm
    have hrest := ih hc.2.2.2
    have hbelow : ∀ x, x ≤ k → Memory.read rest x = unlistedByte := fun x hx => read_below hc.2.2.2 (by omega)
    unfold Memory.write
    by_cases h1 : i < k
    · by_cases hv : v = unlistedByte
      · have hki : k ≠ i := by omega
        by_cases hij : i = j
        · subst hij
          simp [h1, hv, Memory.read, hki, hbelow i (by omega)]
        · simp [h1, hv, hij]
      · rw [if_pos h1, if_neg hv]
        by_cases hij : i = j <;> simp [Memory.read, hij]
    · by_cases h2 : i = k
      · subst h2
        by_cases hv : v = unlistedByte
        · by_cases hij : i = j
          · subst hij
            simp [hv, hbelow i (by omega)]
          · simp [hv, hij, Memory.read]
        · rw [if_neg h1, if_pos rfl, if_neg hv]
          by_cases hij : i = j <;> simp [Memory.read, hij]
      · by_cases hkj : k = j
        · subst hkj
          simp [h1, h2, Memory.read]
        · simp [h1, h2, Memory.read, hkj, hrest]

/-- Read after write, at every index (R67). -/
theorem read_write {i j : Nat} {v : Byte} {m : Memory} (hm : m.wf = true) :
    (m.write i v).read j = if i = j then v else m.read j := read_write_lemma hm

theorem read_run (v : Byte) :
    ∀ (n lo j : Nat), (Memory.run v n lo).read j = if lo ≤ j ∧ j < lo + n then v else unlistedByte
  | 0, lo, j => by
    have : ¬ (lo ≤ j ∧ j < lo + 0) := by omega
    simp only [if_neg this]; rfl
  | n + 1, lo, j => by
    by_cases h : lo = j
    · subst h; simp [Memory.run, Memory.read]
    · simp only [Memory.run, Memory.read, if_neg h, read_run v n (lo + 1) j]
      congr 1
      apply propext; omega

/-- After a fill every index in range reads the value (R68). -/
theorem read_fill (v : Byte) {i : Nat} (hi : i < spaceSize) : (Memory.fill v).read i = v := by
  unfold Memory.fill
  split
  · rename_i hv; subst hv; rfl
  · rw [read_run]; exact if_pos ⟨Nat.zero_le _, by omega⟩

end Memory

/-! ## The primitives over the spaces -/

/-- MemRead after MemWrite (R67, R60): the byte written at that space and address, every other byte as before. -/
theorem memRead_memWrite {s : State} {sp sq : Space} {addr addr' v : Byte} (hm : (s.space sp).wf = true) :
    memRead sq addr' (memWrite sp addr v s) = if sq = sp ∧ addr' = addr then v else memRead sq addr' s := by
  by_cases hs : sq = sp
  · subst hs
    have hspace : (memWrite sq addr v s).space sq = (s.space sq).write addr.toNat v := by
      cases sq <;> rfl
    unfold memRead
    rw [hspace, Memory.read_write hm]
    by_cases ha : addr' = addr
    · subst ha; simp
    · have hne : addr.toNat ≠ addr'.toNat := fun h => ha (BitVec.eq_of_toNat_eq h.symm)
      simp [hne, ha]
  · have hspace : (memWrite sp addr v s).space sq = s.space sq := by
      cases sp <;> cases sq <;> first | rfl | exact absurd rfl hs
    simp [memRead, hspace, hs]

/-- MemRead after MemFill (R68, R60): the value at every address of the space, every other space as before. -/
theorem memRead_memFill {s : State} {sp sq : Space} {addr v : Byte} :
    memRead sq addr (memFill sp v s) = if sq = sp then v else memRead sq addr s := by
  by_cases hs : sq = sp
  · subst hs
    have hspace : (memFill sq v s).space sq = Memory.fill v := by cases sq <;> rfl
    have hlt : addr.toNat < spaceSize := addr.isLt
    simp [memRead, hspace, Memory.read_fill v hlt]
  · have hspace : (memFill sp v s).space sq = s.space sq := by
      cases sp <;> cases sq <;> first | rfl | exact absurd rfl hs
    simp [memRead, hspace, hs]

end Sys2Proof.Machine
end

