-- ==== Sys2Proof/Laws/Exec.lean ====
section
/-! SUPPORT. One equation for all 26 meanings: what each instruction's stage E writes, where it transfers to, and what it
reports; and that stage E keeps what the whole machine keeps. -/

namespace Sys2Proof.Machine

/-- Stage E of an instruction as a change of the state, the IP left to the ends of the step. -/
def effectOf : Instr → State → State
  | .noop | .jmp _ | .jnz _ | .fsh => id
  | .sta v => move (.immediate v) .regA
  | .stb v => move (.immediate v) .regB
  | .swp => State.swapAB
  | .mvr address => move .regB (.ramAbsolute address)
  | .rdr address => move (.ramAbsolute address) .regB
  | .mva => move .regB .ramIndirect
  | .rda => move .ramIndirect .regB
  | .mvv v => move (.immediate v) .vramIndirect
  | .rev => move .vramIndirect .regB
  | .rdi mask => fun s => s.setB (s.inp &&& mask)
  | .add => State.binaryAlu aluAdd
  | .mul => State.binaryAlu aluMul
  | .mod => State.binaryAlu aluMod
  | .or => State.binaryAlu aluOr
  | .and => State.binaryAlu aluAnd
  | .xor => State.binaryAlu aluXor
  | .not => fun s => s.setB (aluNot s.b)
  | .shl n => fun s => s.setB (aluShl s.b n)
  | .shr n => fun s => s.setB (aluShr s.b n)
  | .inc => fun s => s.setA (aluInc s.a)
  | .dec => fun s => s.setA (aluDec s.a)
  | .flv v => memFill .vram v

/-- What an instruction's step reports after its advance (R159). -/
def reportOf (i : Instr) : StepOutcome := if i = .fsh then .flush else .continue_

/-- Where an instruction transfers to from this state, if it does (R156). -/
def transferOf (s : State) : Instr → Option Byte
  | .jmp target => some target
  | .jnz target => if bNonZero s then some target else none
  | _ => none

/-- The meaning of every instruction in one equation. -/
theorem exec_eq (i : Instr) (s : State) :
    exec i s =
      if i = .mod ∧ s.a = 0x00 then raise .divisionByZero s
      else
        match transferOf s i with
        | some target => runTransfer target s
        | none => runSequential i.arity (reportOf i) (effectOf i) s := by
  cases i with
  | jnz target =>
    cases hb : bNonZero s with
    | true => simp [exec, execJnz, transferOf, hb]
    | false => simp [exec, execJnz, transferOf, hb]; rfl
  | mod =>
    by_cases ha : s.a = 0x00
    · simp [exec, execMod, ha]
    · simp [exec, execMod, transferOf]; rfl
  | _ => rfl

/-- What a meaning can do when it answers a next state: one of four ends. -/
theorem exec_cases {i : Instr} {s t : State} (h : exec i s = .next t) :
    (i = .mod ∧ s.a = 0x00 ∧ t = s.record .divisionByZero) ∨
      (operandInBounds i.arity s = false ∧ t = s.record .argOutOfBounds) ∨
      (∃ target, transferOf s i = some target ∧ operandInBounds 1 s = true ∧ t = s.transfer target) ∨
      (¬ (i = .mod ∧ s.a = 0x00) ∧ transferOf s i = none ∧ operandInBounds i.arity s = true ∧
        t = (effectOf i s).advance i.arity (reportOf i)) := by
  rw [exec_eq] at h
  split at h
  · exact .inl ⟨(‹_ ∧ _›).1, (‹_ ∧ _›).2, (Host.Outcome.next.inj h).symm⟩
  · cases ht : transferOf s i with
    | some target =>
      rw [ht] at h
      have harity : i.arity = 1 := by
        cases i <;> first | rfl | exact absurd ht (by simp [transferOf])
      rcases runTransfer_cases h with ⟨hb, ht'⟩ | ⟨hb, ht'⟩
      · exact .inr (.inr (.inl ⟨target, rfl, hb, ht'⟩))
      · exact .inr (.inl ⟨harity ▸ hb, ht'⟩)
    | none =>
      rw [ht] at h
      rcases runSequential_cases h with ⟨hb, ht'⟩ | ⟨hb, ht'⟩
      · exact .inr (.inr (.inr ⟨‹_›, rfl, hb, ht'⟩))
      · exact .inr (.inl ⟨hb, ht'⟩)

/-- Stage E writes neither IP nor INP nor a status field, and never PROG (R33, R35, R62). -/
theorem effectOf_keeps (i : Instr) (s : State) :
    (effectOf i s).ip = s.ip ∧ (effectOf i s).inp = s.inp ∧ (effectOf i s).prog = s.prog ∧
      (effectOf i s).halt = s.halt ∧ (effectOf i s).outc = s.outc ∧ (effectOf i s).outp = s.outp := by
  cases i <;> exact ⟨rfl, rfl, rfl, rfl, rfl, rfl⟩

end Sys2Proof.Machine
end

