-- ==== Sys2Proof/Laws/Host.lean ====
section
/-! SUPPORT. What a run and the moves of a block can do, each said once, for proofs to cite. -/

namespace Sys2Proof.Machine

@[simp] theorem Block.idle_state (s : State) : (Block.idle s).state = s := rfl
@[simp] theorem Block.idle_busy (s : State) : (Block.idle s).busy = false := rfl

/-! ## Runs -/

/-- Where a run that is not halted has come to without fuel. -/
theorem runToBoundary_zero {s : State} (h : s.halt = false) : runToBoundary 0 s = .next (.unfinished s) := by
  simp [runToBoundary, h]

/-- One step of a run: it goes on after Continue, and returns after every other outcome (R162). -/
theorem runToBoundary_succ {fuel : Nat} {s t : State} (h : s.halt = false) (ht : step s = .next t) :
    runToBoundary (fuel + 1) s =
      if t.outcome = .continue_ then runToBoundary fuel t else .next (.returned t) := by
  simp [runToBoundary, h, ht]

/-- Everything a RUN can answer: the idle block with the outcome it returns, or the busy block it has left so far. -/
theorem runFrom_cases {fuel : Nat} {s : State} {b : Block} {r : Response} (h : runFrom fuel s = .next (b, r)) :
    (∃ t, runToBoundary fuel s = .next (.returned t) ∧ b = .idle t ∧ r = t.report) ∨
      (∃ t, runToBoundary fuel s = .next (.unfinished t) ∧ b = { state := t, busy := true } ∧ r = .running) := by
  unfold runFrom at h
  split at h
  · rename_i t ht
    cases h
    exact .inl ⟨t, ht, rfl, rfl⟩
  · rename_i t ht
    cases h
    exact .inr ⟨t, ht, rfl, rfl⟩
  · cases h
  · cases h

/-! ## Transactions -/

/-- A transaction that ends in its own move answers the idle block with its state. -/
theorem completed_cases {o : Host.Outcome State Fault Refusal} {response : State → Response} {b : Block} {r : Response}
    (h : completed o response = .next (b, r)) : ∃ t, o = .next t ∧ b = .idle t ∧ r = response t := by
  unfold completed at h
  split at h
  · cases h
    exact ⟨_, rfl, rfl, rfl⟩
  · cases h
  · cases h

/-- The first transaction of a sequence, and then the rest from the block it leaves. -/
theorem transactAll_cons {t : Transaction} {ts : List Transaction} {b c d : Block} {r : Response} {rs : List Response}
    (h : transact t b = .next (c, r)) (hs : transactAll ts c = .next (d, rs)) :
    transactAll (t :: ts) b = .next (d, r :: rs) := by
  simp [transactAll, h, hs]

/-- Everything a move at signal level can answer: what its transaction answers, with the response pulsed when the block is not
busy. -/
theorem signalled_cases {o : Host.Outcome (Block × Response) Fault Refusal} {b : Block} {r : SignalReply}
    (h : signalled o = .next (b, r)) :
    ∃ response, o = .next (b, response) ∧ r = b.signalReply (!b.busy) response.byte? := by
  unfold signalled at h
  split at h
  · cases h
    exact ⟨_, rfl, rfl⟩
  · cases h
  · cases h

end Sys2Proof.Machine
end

