-- ==== Sys2Proof/Laws/Invariant.lean ====
section
/-! SUPPORT. The pieces of the machine's invariant: every operation on the three memories keeps their canonical form, and
recording an outcome in a block that has not halted makes the status fields agree. -/

namespace Sys2Proof.Machine

theorem State.memoriesWf_iff {s : State} :
    s.memoriesWf = true ↔ s.prog.wf = true ∧ s.ram.wf = true ∧ s.vram.wf = true := by
  simp [State.memoriesWf, and_assoc]

/-- Every space of a state with canonical memories is canonical. -/
theorem State.space_wf {s : State} (h : s.memoriesWf = true) (sp : Space) : (s.space sp).wf = true := by
  obtain ⟨hp, hr, hv⟩ := State.memoriesWf_iff.1 h
  cases sp <;> assumption

/-- Replacing a space by a canonical memory. -/
theorem State.setSpace_memoriesWf {s : State} (h : s.memoriesWf = true) (sp : Space) {m : Memory} (hm : m.wf = true) :
    (s.setSpace sp m).memoriesWf = true := by
  obtain ⟨hp, hr, hv⟩ := State.memoriesWf_iff.1 h
  cases sp <;> exact State.memoriesWf_iff.2 (by simp [hp, hr, hv, hm])

theorem memWrite_memoriesWf {s : State} (h : s.memoriesWf = true) (sp : Space) (addr v : Byte) :
    (memWrite sp addr v s).memoriesWf = true :=
  State.setSpace_memoriesWf h sp (Memory.write_wf (State.space_wf h sp) addr.isLt)

theorem memFill_memoriesWf {s : State} (h : s.memoriesWf = true) (sp : Space) (v : Byte) :
    (memFill sp v s).memoriesWf = true :=
  State.setSpace_memoriesWf h sp (Memory.fill_wf v)

/-- Stage E of every instruction keeps the memories canonical. -/
theorem effectOf_memoriesWf {s : State} (h : s.memoriesWf = true) (i : Instr) :
    (effectOf i s).memoriesWf = true := by
  cases i with
  | mvr address => exact memWrite_memoriesWf h .ram address s.b
  | mva => exact memWrite_memoriesWf h .ram s.a s.b
  | mvv v => exact memWrite_memoriesWf h .vram s.a v
  | flv v => exact memFill_memoriesWf h .vram v
  | _ => exact h

/-- An outcome that a step can report with its payload: no MemCopy outcome, and an UnknownOp payload of 26 or more. -/
def StepOutcome.reportable : StepOutcome → Bool
  | .readOutOfBounds | .writeOutOfBounds => false
  | .unknownOp op => decide (26 ≤ op.toNat)
  | .continue_ | .endOfProgram | .argOutOfBounds | .flush | .divisionByZero => true

/-- Recording a reportable outcome in a block that has not halted (R309). -/
theorem State.record_statusWf {s : State} (h : s.halt = false) {o : StepOutcome} (ho : o.reportable = true) :
    (s.record o).statusWf = true := by
  cases o with
  | unknownOp op =>
    have : 26 ≤ op.toNat := by simpa [StepOutcome.reportable] using ho
    simp [State.statusWf, State.record, StepOutcome.halting, StepOutcome.code, StepOutcome.payload, haltingCode,
      reachableCode, payloadWf, this]
  | readOutOfBounds => exact absurd ho (by decide)
  | writeOutOfBounds => exact absurd ho (by decide)
  | _ =>
    simp [State.statusWf, State.record, h, StepOutcome.halting, StepOutcome.code, StepOutcome.payload, haltingCode,
      reachableCode, payloadWf]

end Sys2Proof.Machine
end

