-- ==== Sys2Proof/Laws/PerInstr.lean ====
section
/-! SUPPORT. Facts about every instruction as syntax, one lemma a constructor. -/

namespace Sys2Proof.Laws.Encoding

/-- An instruction's bytes are as many as its length says, and its opcode byte is in the catalog's range (R100, R103, R104). -/
def Statement (i : Instr) : Prop := (encode i).length = i.length ∧ i.opcode.toNat ≤ 25

theorem noop : Statement (.noop) := ⟨rfl, by decide⟩
theorem jmp (v : Byte) : Statement (.jmp v) := ⟨rfl, by simp [Instr.opcode]⟩
theorem jnz (v : Byte) : Statement (.jnz v) := ⟨rfl, by simp [Instr.opcode]⟩
theorem sta (v : Byte) : Statement (.sta v) := ⟨rfl, by simp [Instr.opcode]⟩
theorem stb (v : Byte) : Statement (.stb v) := ⟨rfl, by simp [Instr.opcode]⟩
theorem swp : Statement (.swp) := ⟨rfl, by decide⟩
theorem mvr (v : Byte) : Statement (.mvr v) := ⟨rfl, by simp [Instr.opcode]⟩
theorem rdr (v : Byte) : Statement (.rdr v) := ⟨rfl, by simp [Instr.opcode]⟩
theorem mva : Statement (.mva) := ⟨rfl, by decide⟩
theorem rda : Statement (.rda) := ⟨rfl, by decide⟩
theorem mvv (v : Byte) : Statement (.mvv v) := ⟨rfl, by simp [Instr.opcode]⟩
theorem rev : Statement (.rev) := ⟨rfl, by decide⟩
theorem rdi (v : Byte) : Statement (.rdi v) := ⟨rfl, by simp [Instr.opcode]⟩
theorem add : Statement (.add) := ⟨rfl, by decide⟩
theorem mul : Statement (.mul) := ⟨rfl, by decide⟩
theorem mod : Statement (.mod) := ⟨rfl, by decide⟩
theorem or : Statement (.or) := ⟨rfl, by decide⟩
theorem and : Statement (.and) := ⟨rfl, by decide⟩
theorem xor : Statement (.xor) := ⟨rfl, by decide⟩
theorem not : Statement (.not) := ⟨rfl, by decide⟩
theorem shl (v : Byte) : Statement (.shl v) := ⟨rfl, by simp [Instr.opcode]⟩
theorem shr (v : Byte) : Statement (.shr v) := ⟨rfl, by simp [Instr.opcode]⟩
theorem inc : Statement (.inc) := ⟨rfl, by decide⟩
theorem dec : Statement (.dec) := ⟨rfl, by decide⟩
theorem flv (v : Byte) : Statement (.flv v) := ⟨rfl, by simp [Instr.opcode]⟩
theorem fsh : Statement (.fsh) := ⟨rfl, by decide⟩

end Sys2Proof.Laws.Encoding
end

