-- ==== Sys2Proof/Tests/Slice0.lean ====
section
/-! SUPPORT. The model's own tests, and a witness for the hypotheses of each statement.
Expected results are the specification's vectors (95_test_vectors.md: W1 to W8, V-CTL to V-PIX, P5) and the words of the opcode
table, never the model's own answers. -/

namespace Sys2Proof.Tests

open Sys2Proof Sys2Proof.Machine

/-- The reset state with A, B, IP changed and bytes placed in PROG at that IP. -/
def start (ip a b : Byte) (code : List Byte) : State :=
  { State.reset with ip := ip, a := a, b := b, prog := Memory.writeRange [] ip.toNat code }

/-- What an answer goes on with. -/
def nextOf {α : Type} : Host.Outcome α Fault Refusal → Option α
  | .next t => some t
  | .fault _ => none
  | .refused _ => none

/-- Why an answer refuses. -/
def refusalOf {α : Type} : Host.Outcome α Fault Refusal → Option Refusal
  | .next _ => none
  | .fault _ => none
  | .refused r => some r

/-- A, B, IP, OUTC and HALT after one step. -/
def after (s : State) : Option (Byte × Byte × Byte × BitVec 3 × Bool) :=
  (nextOf (step s)).map fun t => (t.a, t.b, t.ip, t.outc, t.halt)

/-- One byte of a space after one step. -/
def byteAfter (sp : Space) (addr : Byte) (s : State) : Option Byte := (nextOf (step s)).map (memRead sp addr)

/-! ## Well-formedness: an ill-formed term for each check -/

set_option maxRecDepth 20000 in
theorem test_image_of_255_bytes_is_ill_formed : imageWf (List.replicate 255 0x00) = false := by decide
set_option maxRecDepth 20000 in
theorem test_image_of_256_bytes_is_well_formed : imageWf (List.replicate 256 0xFF) = true := by decide
theorem test_space_code_3_is_ill_formed : spaceCodeWf 3 = false ∧ spaceCodeWf 2 = true := by decide
theorem test_memory_out_of_order_is_ill_formed : Memory.wf [(3, 0x01), (2, 0x01)] = false := by decide
theorem test_memory_listing_zero_is_ill_formed : Memory.wf [(3, 0x00)] = false := by decide
theorem test_memory_beyond_255_is_ill_formed : Memory.wf [(256, 0x01)] = false := by decide
theorem test_memory_canonical : Memory.wf [(0, 0x01), (255, 0xFF)] = true := by decide

/-! ## Decoding: every constructor's word, from the opcode table's encodings -/

theorem test_decode_control : decode [0b00000000] = .ok (.noop, []) ∧ decode [0b00000001, 0b00000101] = .ok (.jmp 5, []) ∧
    decode [0b00000010, 0b00101000] = .ok (.jnz 40, []) := by decide
theorem test_decode_register : decode [0b00000011, 0b10000000] = .ok (.sta 128, []) ∧
    decode [0b00000100, 0b10000000] = .ok (.stb 128, []) ∧ decode [0b00000101] = .ok (.swp, []) := by decide
theorem test_decode_ram : decode [0b00000110, 0b11111111] = .ok (.mvr 255, []) ∧
    decode [0b00000111, 0b00000011] = .ok (.rdr 3, []) ∧ decode [0b00001000] = .ok (.mva, []) ∧
    decode [0b00001001] = .ok (.rda, []) := by decide
theorem test_decode_vram_and_input : decode [0b00001010, 0b00110000] = .ok (.mvv 48, []) ∧
    decode [0b00001011] = .ok (.rev, []) ∧ decode [0b00001100, 0b00000001] = .ok (.rdi 1, []) := by decide
theorem test_decode_arithmetic : decode [0b00001101] = .ok (.add, []) ∧ decode [0b00001110] = .ok (.mul, []) ∧
    decode [0b00001111] = .ok (.mod, []) ∧ decode [0b00010110] = .ok (.inc, []) ∧
    decode [0b00010111] = .ok (.dec, []) := by decide
theorem test_decode_logic : decode [0b00010000] = .ok (.or, []) ∧ decode [0b00010001] = .ok (.and, []) ∧
    decode [0b00010010] = .ok (.xor, []) ∧ decode [0b00010011] = .ok (.not, []) := by decide
theorem test_decode_shifts : decode [0b00010100, 0b00000100] = .ok (.shl 4, []) ∧
    decode [0b00010101, 0b00000111] = .ok (.shr 7, []) := by decide
theorem test_decode_frame : decode [0b00011000, 0b00010101] = .ok (.flv 21, []) ∧ decode [0b00011001] = .ok (.fsh, []) := by decide
theorem test_decode_rejects_by_name : decode [] = .error .noBytes ∧ decode [0x1A] = .error (.unknownOpcode 0x1A) ∧
    decode [0xFF] = .error (.unknownOpcode 0xFF) ∧ decode [0x18] = .error (.operandMissing 0x18) := by decide
/-- The bytes of the source's example (W1). -/
theorem test_decode_example_program : decodeSequence 8 [0x03, 0x80, 0x04, 0x80, 0x0D, 0x02, 0x04, 0x19] =
    .ok [.sta 128, .stb 128, .add, .jnz 4, .fsh] := by decide
theorem test_decode_table_word : decodeTableWord 16 0x8003 = some (.sta 0x80) ∧ decodeTableWord 8 0x03 = some (.sta 0x00) ∧
    decodeTableWord 8 0x19 = some .fsh ∧ decodeTableWord 8 0x1A = none := by decide
theorem test_fetch_word_runs_first_after_reset : (nextOf (step (State.reset.withFetchWord 16 0x8003))).map State.a = some 0x80 := by
  decide

/-! ## Instructions (V-CTL, V-REG, V-MEM, V-ALU, V-FRM) -/

theorem test_noop_at_254 : after (start 254 0 0 [0x00]) = some (0, 0, 255, 0, false) := by decide
theorem test_noop_at_255_ends_program : after (start 255 0 0 [0x00]) = some (0, 0, 255, 3, true) := by decide
theorem test_jmp_at_254_continues : after (start 254 0 0 [0x01, 0x00]) = some (0, 0, 0, 0, false) := by decide
theorem test_jmp_at_255 : after (start 255 0 0 [0x01]) = some (0, 0, 255, 4, true) := by decide
theorem test_jnz_taken_at_254 : after (start 254 0 7 [0x02, 0x28]) = some (0, 7, 40, 0, false) := by decide
theorem test_jnz_not_taken_at_254 : after (start 254 0 0 [0x02, 0x28]) = some (0, 0, 254, 3, true) := by decide
theorem test_sta_255 : after (start 0 9 1 [0x03, 0xFF]) = some (255, 1, 2, 0, false) := by decide
theorem test_sta_at_254 : after (start 254 0 0 [0x03, 0x11]) = some (17, 0, 254, 3, true) := by decide
theorem test_stb_128 : after (start 2 128 0 [0x04, 0x80]) = some (128, 128, 4, 0, false) := by decide
theorem test_stb_at_255 : after (start 255 9 0 [0x04]) = some (9, 0, 255, 4, true) := by decide
theorem test_swp : after (start 0 7 200 [0x05]) = some (200, 7, 1, 0, false) := by decide
theorem test_mvr_255 : byteAfter .ram 255 (start 0 0 0x2A [0x06, 0xFF]) = some 0x2A := by decide
theorem test_rdr_3 : after { start 0 0 0 [0x07, 0x03] with ram := [(3, 9)] } = some (0, 9, 2, 0, false) := by decide
theorem test_rdr_unwritten : after (start 0 0 5 [0x07, 0x80]) = some (0, 0, 2, 0, false) := by decide
theorem test_mva_top : byteAfter .ram 255 (start 0 255 255 [0x08]) = some 255 := by decide
theorem test_mva_at_255_stores : byteAfter .ram 1 (start 255 1 6 [0x08]) = some 6 := by decide
theorem test_rda : after { start 0 16 0 [0x09] with ram := [(16, 5)] } = some (16, 5, 1, 0, false) := by decide
theorem test_mvv : byteAfter .vram 17 (start 0 17 0 [0x0A, 0x30]) = some 48 := by decide
theorem test_mvv_at_255_stores_nothing : byteAfter .vram 0 (start 255 0 0 [0x0A]) = some 0 := by decide
theorem test_rev : after { start 0 17 0 [0x0B] with vram := [(17, 48)] } = some (17, 48, 1, 0, false) := by decide
theorem test_rdi_masks : after { start 0 0 0 [0x0C, 0x02] with inp := 0x05 } = some (0, 0, 2, 0, false) := by decide
theorem test_rdi_reserved_bits : after { start 0 0 0 [0x0C, 0xFF] with inp := 0xF3 } = some (0, 0xF3, 2, 0, false) := by decide
theorem test_add_wraps : after (start 0 200 100 [0x0D]) = some (200, 44, 1, 0, false) := by decide
theorem test_mul_top : after (start 0 255 255 [0x0E]) = some (255, 1, 1, 0, false) := by decide
theorem test_mod : after (start 0 3 200 [0x0F]) = some (3, 2, 1, 0, false) := by decide
theorem test_mod_zero_at_255 : after (start 255 0 9 [0x0F]) = some (0, 9, 255, 7, true) := by decide
theorem test_or : after (start 0 0x0A 0x0C [0x10]) = some (0x0A, 0x0E, 1, 0, false) := by decide
theorem test_and : after (start 0 0x0A 0x0C [0x11]) = some (0x0A, 0x08, 1, 0, false) := by decide
theorem test_xor : after (start 0 0xFF 0x3C [0x12]) = some (0xFF, 0xC3, 1, 0, false) := by decide
theorem test_not : after (start 0 1 0x0F [0x13]) = some (1, 0xF0, 1, 0, false) := by decide
theorem test_shl_1 : after (start 0 0 0x81 [0x14, 0x01]) = some (0, 0x02, 2, 0, false) := by decide
theorem test_shl_255 : after (start 0 0 0xFF [0x14, 0xFF]) = some (0, 0x00, 2, 0, false) := by decide
theorem test_shr_1_is_logical : after (start 0 0 0xFF [0x15, 0x01]) = some (0, 0x7F, 2, 0, false) := by decide
theorem test_shr_8 : after (start 0 0 0xFF [0x15, 0x08]) = some (0, 0x00, 2, 0, false) := by decide
theorem test_shift_wide_mask3 : shiftLeftUnder .mask3 0xFF 8 = 0xFF ∧ shiftLeftUnder .mask3 0xFF 255 = 0x80 ∧
    shiftRightUnder .mask3 0xFF 8 = 0xFF := by decide
theorem test_inc_wraps : after (start 0 255 1 [0x16]) = some (0, 1, 1, 0, false) := by decide
theorem test_dec_wraps : after (start 0 0 1 [0x17]) = some (255, 1, 1, 0, false) := by decide
set_option maxRecDepth 20000 in
theorem test_flv_top : byteAfter .vram 255 (start 0 0 0 [0x18, 0x15]) = some 0x15 := by decide
theorem test_flv_at_254 : after (start 254 0 0 [0x18, 0x07]) = some (0, 0, 254, 3, true) := by decide
theorem test_fsh_at_7 : after (start 7 128 0 [0x19]) = some (128, 0, 8, 6, false) := by decide
theorem test_fsh_at_255_reports_no_flush : after (start 255 0 0 [0x19]) = some (0, 0, 255, 3, true) := by decide

/-! ## Outcomes, host and platform (V-DEC, V-PIX, R326, R329) -/

theorem test_unknown_op_at_255 : (nextOf (step (start 255 0 0 [0xFF]))).map (fun t => (t.ip, t.outc, t.outp, t.halt)) =
    some (255, 5, 0xFF, true) := by decide
theorem test_step_while_halted :
    nextOf (step { start 40 1 2 [0x16] with halt := true, outc := 5, outp := 0x1A }) =
      some { start 40 1 2 [0x16] with halt := true, outc := 5, outp := 0x1A } := by decide
theorem test_reset_clears_halt : resetBlock { start 40 1 2 [0x1A] with halt := true, outc := 5, outp := 0x1A, inp := 3 } =
    { State.reset with prog := [(40, 0x1A)] } := by decide
theorem test_status_byte_4 : statusByte { State.reset with halt := true, outc := 5 } 4 = 0x0D := by decide
theorem test_mem_copy_overlap : (Memory.copy [(0, 1), (1, 2), (2, 3)] 0 1 3).toOption = some [(0, 1), (1, 1), (2, 2), (3, 3)] := by
  decide
theorem test_mem_copy_checks_source_first : Memory.copy [] 255 255 2 = .error .readOutOfBounds ∧
    Memory.copy [] 0 255 2 = .error .writeOutOfBounds := by decide
theorem test_reserved_cmd_has_no_effect :
    (nextOf (signalCommand 1 ⟨false, true, 6, 0, 0⟩ (.idle State.reset))).map (fun x => (x.1, x.2.rdata, x.2.respValid)) =
      some (.idle State.reset, some 0x00, true) := by decide
/-- A polling loop: `rdi 255`, then `jmp 0`; it never reads another input inside one RUN (R358). -/
def polling : State := start 0 0 0 [0x0C, 0xFF, 0x01, 0x00]
theorem test_no_transaction_during_a_run : refusalOf (transactAll [.run 1, .inpWrite 1] (.idle polling)) =
    some .transactionInProgress := by decide
/-- R329: `busy` stays 1 over an unfinished RUN, and a command given meanwhile is ignored. -/
theorem test_busy_ignores_commands :
    (nextOf (signalCommand 1 ⟨false, true, 1, 0, 0⟩ (.idle polling))).map (fun x => (x.2.busy, x.2.respValid)) =
      some (true, false) ∧
    (nextOf (signalCommand 1 ⟨false, true, 3, 0, 9⟩ ⟨polling, true⟩)).map
      (fun x => (x.1.state.inp, x.2.busy, x.2.respValid)) = some (0, true, false) ∧
    (nextOf (signalCommand 1 ⟨false, true, 3, 0, 9⟩ ⟨start 7 0 0 [0x19], true⟩)).map
      (fun x => (x.1.state.inp, x.2.busy, x.2.respValid, x.2.outCode)) = some (0, false, true, 6) := by decide
/-- How the ticks end, with a frame's first pixel and its length (R354). -/
def tickEnds (ends : List TickEnd) : List (Option (Nat × Option Byte)) :=
  ends.map fun e => match e with
    | .frame pixels => some (pixels.length, pixels.head?)
    | .stopped _ | .running => none
set_option maxRecDepth 20000 in
/-- `rdi 255; mvv 5; fsh`, then an illegal opcode: one frame, then the host stops. -/
theorem test_frame_loop_stops_after_a_fault :
    (nextOf (frameLoop 9 [1, 2, 3] (.idle (start 0 0 0 [0x0C, 0xFF, 0x0A, 0x05, 0x19, 0x1A])))).map
      (fun x => (tickEnds x.2, x.1.state.b, x.1.state.inp, x.1.state.halt)) =
        some ([some (256, some 5), none], 1, 2, true) := by decide
theorem test_port_refuses_space_3 : refusalOf (portRequest .data 3 (.read 0) State.reset) = some .reservedSpaceCode := by
  decide
theorem test_pixels : colourOf 0x0B = ⟨0, 170, 255⟩ ∧ colourOf 0xC0 = ⟨0, 0, 0⟩ ∧ pixelX 31 = 15 ∧ pixelY 31 = 1 ∧
    pixelIndex 1 1 = 17 ∧ displayLine 15 = 0 := by decide
theorem test_input_left_and_up : inputByte true false false true = 0x09 ∧ Direction.active .left 0x09 = true ∧
    Direction.active .right 0x09 = false ∧ Direction.active .down 0x09 = false ∧ Direction.active .up 0x09 = true := by decide

/-! ## Assembler (P5, W1) -/

/-- The first bytes of the image of a source text, or the error. -/
def firstBytes (n : Nat) (source : String) : Except AsmError (List Byte) := (assemble source.toList).map (List.take n)

theorem test_assemble_forward_reference : firstBytes 4 "jnz 'end\n'end\nfsh" = .ok [0x02, 0x02, 0x19, 0x00] := by decide
theorem test_assemble_backward_reference : firstBytes 3 "'top\nnoop\njmp 'top" = .ok [0x00, 0x01, 0x00] := by decide
theorem test_assemble_literals : firstBytes 2 "sta 007" = .ok [0x03, 0x07] ∧
    firstBytes 2 "sta 256" = .error .invalidOperandLiteral ∧ firstBytes 2 "sta -1" = .error .invalidOperandLiteral ∧
    firstBytes 2 "sta 0x10" = .error .invalidOperandLiteral := by decide
theorem test_assemble_arity : firstBytes 2 "add 1" = .error .arityMismatch ∧ firstBytes 2 "sta" = .error .arityMismatch ∧
    firstBytes 2 "sta 1,2" = .error .arityMismatch := by decide
theorem test_assemble_names : firstBytes 2 "ADD" = .error .unknownMnemonic ∧ firstBytes 2 "'a\n'a" = .error .duplicateLabel ∧
    firstBytes 2 "jmp 'nowhere" = .error .unknownLabel ∧ firstBytes 2 "'" = .error .unknownMnemonic := by decide
theorem test_assemble_comment : firstBytes 1 "  add // comment" = .ok [0x0D] := by decide
set_option maxRecDepth 20000 in
theorem test_assemble_overflow : emitByte 0x00 ⟨List.replicate 256 0x00, [], []⟩ = .error .programOverflow ∧
    assembleLabel ['a'] ⟨List.replicate 256 0x00, [], []⟩ = .error .programOverflow := by decide

/-! ## Witnesses: a state and operands that meet the hypotheses of each statement, and of each of its clauses -/

/-- The clauses of the one-byte instructions (statements over `Claim.endsAsF0`): IP 254 and IP 255, with the ends they give
for one instruction of each such statement. -/
theorem witness_clauses_of_one_byte_instructions :
    (start 254 0 0 []).ip.toNat ≤ 254 ∧ (start 255 0 0 []).ip.toNat = 255 ∧ (start 0 0 0 []).ip.toNat ≤ 254 := by decide
/-- The clauses of the two-byte instructions (statements over `Claim.endsAsF1`): IP 253, 254 and 255. -/
theorem witness_clauses_of_two_byte_instructions :
    (start 253 0 0 []).ip.toNat ≤ 253 ∧ (start 254 0 0 []).ip.toNat = 254 ∧ (start 255 0 0 []).ip.toNat = 255 := by decide
theorem witness_DecodeInvertsEncode : decode [0x03, 0xFF, 0x07] = .ok (.sta 0xFF, [0x07]) ∧
    [0x03, 0xFF, 0x07] = encode (.sta 0xFF) ++ [0x07] := by decide
theorem witness_DenseSequencesDecode : (encodeAll [.sta 1, .fsh]).length ≤ 3 := by decide
theorem witness_DecoderIsBoundsChecked : (25#8 : Byte).toNat ≤ 25 ∧ 26 ≤ (26#8 : Byte).toNat := by decide
theorem witness_NoopOnlyAdvances : after (start 255 0 0 []) = some (0, 0, 255, 3, true) ∧
    after (start 254 0 0 []) = some (0, 0, 255, 0, false) := by decide
theorem witness_JmpSetsIp : (start 254 0 0 []).ip.toNat ≤ 254 ∧ (start 255 0 0 []).ip.toNat = 255 := by decide
theorem witness_JnzTestsB :
    ((start 254 0 1 []).b ≠ 0x00 ∧ (start 254 0 1 []).ip.toNat ≤ 254) ∧
    ((start 255 0 1 []).b ≠ 0x00 ∧ (start 255 0 1 []).ip.toNat = 255) ∧
    ((start 253 0 0 []).b = 0x00 ∧ (start 253 0 0 []).ip.toNat ≤ 253) ∧
    ((start 254 0 0 []).b = 0x00 ∧ (start 254 0 0 []).ip.toNat = 254) ∧
    ((start 255 0 0 []).b = 0x00 ∧ (start 255 0 0 []).ip.toNat = 255) := by decide
theorem witness_StaSetsA : (nextOf (exec (.sta 7) (start 253 1 2 []))).map (fun t => (t.a, t.ip)) = some (7, 255) := by decide
theorem witness_StbSetsB : (nextOf (exec (.stb 7) (start 253 1 2 []))).map (fun t => (t.b, t.ip)) = some (7, 255) := by decide
theorem witness_SwpExchangesAB : (nextOf (exec .swp (start 254 1 2 []))).map (fun t => (t.a, t.b)) = some (2, 1) := by decide
theorem witness_RamStoresWriteB : (nextOf (exec (.mvr 9) (start 253 1 2 []))).map State.ram = some [(9, 2)] ∧
    (nextOf (exec .mva (start 254 1 2 []))).map State.ram = some [(1, 2)] := by decide
theorem witness_RamLoadsReadToB :
    (nextOf (exec (.rdr 9) { start 253 1 2 [] with ram := [(9, 7)] })).map State.b = some 7 ∧
    (nextOf (exec .rda { start 254 9 2 [] with ram := [(9, 7)] })).map State.b = some 7 := by decide
theorem witness_VramAccessesAreAtA : (nextOf (exec (.mvv 5) (start 253 1 2 []))).map State.vram = some [(1, 5)] ∧
    (nextOf (exec .rev { start 254 9 2 [] with vram := [(9, 7)] })).map State.b = some 7 := by decide
theorem witness_RdiReadsInpThroughMask :
    (nextOf (exec (.rdi 6) { start 253 1 2 [] with inp := 3 })).map State.b = some 2 := by decide
theorem witness_AddWrapsModulo256 : (nextOf (exec .add (start 254 255 1 []))).map State.b = some 0 := by decide
theorem witness_MulKeepsLowByte : (nextOf (exec .mul (start 254 16 16 []))).map State.b = some 0 := by decide
theorem witness_ModTakesRemainder : (start 254 7 5 []).a ≠ 0x00 ∧ (start 254 7 5 []).ip.toNat ≤ 254 ∧
    (start 255 7 5 []).a ≠ 0x00 ∧ (start 255 7 5 []).ip.toNat = 255 := by decide
theorem witness_ModByZeroHalts : (start 0 0 9 []).a = 0x00 := by decide
theorem witness_LogicInstructionsAreBitwise : (nextOf (exec .xor (start 254 0x5A 0x5A []))).map State.b = some 0 := by decide
theorem witness_NotComplementsB : (nextOf (exec .not (start 254 0 0 []))).map State.b = some 0xFF := by decide
theorem witness_ShiftsAreLogical : (nextOf (exec (.shl 7) (start 253 0 3 []))).map State.b = some 0x80 ∧
    (nextOf (exec (.shr 7) (start 253 0 0x80 []))).map State.b = some 1 := by decide
theorem witness_CountersWrapModulo256 : (nextOf (exec .inc (start 254 0 0 []))).map State.a = some 1 ∧
    (nextOf (exec .dec (start 254 1 0 []))).map State.a = some 0 := by decide
theorem witness_FlvFillsVram : (start 253 0 0 []).ip.toNat ≤ 253 ∧
    (nextOf (exec (.flv 7) (start 253 0 0 []))).map (memRead .vram 0) = some 7 := by decide
theorem witness_RevAfterFlvReadsTheFill : (start 253 0 0 []).ip.toNat ≤ 253 := by decide
theorem witness_FshReportsFlush : (nextOf (exec .fsh (start 254 0 0 []))).map State.outc = some 6 := by decide
theorem witness_RegisterWritersAreTheNamedOnes : Claim.writesA .add = false ∧ Claim.writesB .inc = false ∧
    (nextOf (exec .add (start 0 1 2 []))).isSome = true ∧ (nextOf (exec .inc (start 0 1 2 []))).isSome = true := by decide
theorem witness_NonStoringInstructionsKeepMemory : Claim.stores .add = false ∧
    (nextOf (exec .add (start 0 1 2 []))).isSome = true := by decide
theorem witness_StoringInstructionsChangeOneByte :
    (start 0 1 2 []).memoriesWf = true ∧ Claim.storeTarget .mva = some .ramIndirect ∧
    Target.storedAt (start 0 1 2 []) .ramIndirect = some (.ram, 1) ∧
    (nextOf (exec .mva (start 0 1 2 []))).map State.outcome = some .continue_ := by decide
theorem witness_FlvKeepsProgAndRam : (nextOf (exec (.flv 3) (start 0 1 2 []))).map State.outcome = some .continue_ := by decide
theorem witness_StepRunsTheDecodedInstruction : (start 9 0 0 [0x03, 0x07]).halt = false ∧
    decode (fetchWindow (start 9 0 0 [0x03, 0x07])) = .ok (.sta 7, []) := by decide
theorem witness_StepRunsTheBytesAtIp :
    (start 254 0 0 [0x03, 0x07]).halt = false ∧ memRead .prog 254 (start 254 0 0 [0x03, 0x07]) = (Instr.sta 7).opcode ∧
    (Instr.sta 7).operand? = some 7 ∧ (start 254 0 0 [0x03, 0x07]).ip.toNat ≤ 254 ∧
    memRead .prog ((start 254 0 0 [0x03, 0x07]).ip + 1) (start 254 0 0 [0x03, 0x07]) = 7 := by decide
theorem witness_UnknownOpcodeIsReported : (start 40 0 0 [0x1A]).halt = false ∧
    26 ≤ (memRead .prog (start 40 0 0 [0x1A]).ip (start 40 0 0 [0x1A])).toNat := by decide
theorem witness_HaltedStepChangesNothing : { start 0 0 0 [] with halt := true }.halt = true := by decide
theorem witness_OutcomeFollowsThePriority : (start 255 0 9 [0x0F]).halt = false ∧
    Claim.outcomeByPriority (start 255 0 9 [0x0F]) = .divisionByZero ∧
    Claim.outcomeByPriority (start 255 0 0 [0x19]) = .endOfProgram ∧
    Claim.outcomeByPriority (start 255 0 0 [0x1A]) = .unknownOp 0x1A ∧
    Claim.outcomeByPriority (start 254 0 0 [0x01, 0x00]) = .continue_ ∧
    Claim.outcomeByPriority (start 255 0 0 [0x01]) = .argOutOfBounds ∧
    Claim.outcomeByPriority (start 254 0 0 [0x19]) = .flush := by decide
theorem witness_EncoderRecordsEveryStep : (start 0 0 0 [0xC8]).halt = false ∧
    (nextOf (step (start 0 0 0 [0xC8]))).map State.outp = some 0xC8 := by decide
theorem witness_FaultOutcomesArePrecise : (start 255 0 0 [0x04]).halt = false ∧
    (nextOf (step (start 255 0 0 [0x04]))).map (fun t => t.outcome.isFault) = some true := by decide
theorem witness_IpChangesOnlyByAdvanceOrTransfer :
    (nextOf (step (start 255 0 0 [0x00]))).map State.halt = some true ∧
    ((nextOf (step (start 254 0 0 [0x01, 0x05]))).map State.halt = some false ∧
      Claim.takesJump 0x01 (start 254 0 0 [0x01, 0x05]) = true) ∧
    ((nextOf (step (start 253 0 0 [0x03, 0x05]))).map State.halt = some false ∧
      Claim.takesJump 0x03 (start 253 0 0 [0x03, 0x05]) = false) := by decide
theorem witness_ResetStateIsLegal : ResetFill.wf ⟨1, 2, 3, [(0, 4)], [(255, 5)]⟩ = true ∧ Memory.wf [(7, 1)] = true := by decide
theorem witness_StepKeepsTheStateLegal : (start 0 1 2 [0x08]).Inv ∧
    (nextOf (step (start 0 1 2 [0x08]))).isSome = true := by decide
theorem witness_TransactionsKeepTheStateLegal : (Block.idle (start 0 1 2 [0x19])).Inv ∧
    (nextOf (transact (.run 3) (.idle (start 0 1 2 [0x19])))).map Prod.snd = some (.outcome 6 0x00) ∧
    (Block.Inv ⟨start 0 1 2 [0x19], true⟩ ∧
      (nextOf (continueRun 3 ⟨start 0 1 2 [0x19], true⟩)).map Prod.snd = some (.outcome 6 0x00)) ∧
    (nextOf (signalCommand 3 ⟨false, true, 1, 0, 0⟩ (.idle (start 0 1 2 [0x19])))).isSome = true := by decide
theorem witness_OneDataRequestIsTheMemoryEffect :
    (nextOf (exec .rda { start 0 9 0 [] with ram := [(9, 7)] })).map (fun t => (t.outcome.isFault, t.b)) = some (false, 7) ∧
    (nextOf (exec .add (start 0 9 0 []))).map (fun t => t.outcome.isFault) = some false := by decide
theorem witness_PortsReachOnlyTheirSpaces :
    (nextOf (portRequest .host 0 (.write 4 9) State.reset)).map (fun x => x.1.prog) = some [(4, 9)] ∧
    (nextOf (portRequest .fetch 0 (.read 4) State.reset)).map Prod.snd = some 0 ∧
    (nextOf (portRequest .data 2 (.write 4 9) State.reset)).map (fun x => x.1.vram) = some [(4, 9)] ∧
    refusalOf (portRequest .host 1 (.read 4) State.reset) = some .noRoute := by decide
theorem witness_MemWriteStoresOneByte : (start 0 1 2 [0x08]).memoriesWf = true ∧
    ¬ (Space.ram = Space.vram ∧ (0 : Byte) = 1) := by decide
set_option maxRecDepth 20000 in
theorem witness_CanonicalMemoriesAreEqualData : Memory.wf [(1, 2), (3, 4)] = true ∧
    ∀ i : Fin 256, Memory.read [(1, 2), (3, 4)] i = Memory.read (Memory.write [(3, 4)] 1 2) i := by decide
theorem witness_MemCopyCopiesThroughATemporary : Memory.wf [(0, 1)] = true ∧
    ((0 : Byte).toNat + 256 ≤ 256 ∧ (0 : Byte).toNat + 256 ≤ 256) ∧ 256 < (1 : Byte).toNat + 256 ∧
    ((0 : Byte).toNat + 2 ≤ 256 ∧ 256 < (255 : Byte).toNat + 2) := by decide
/-- Whether a run has returned, and the outcome code it has come to. -/
def runEnd : RunResult → Bool × BitVec 3
  | .returned t => (true, t.outc)
  | .unfinished t => (false, t.outc)

/-- A run that returns: fsh at once, and a halted block at once. -/
theorem witness_RunReturnsAtABoundary : (start 0 0 0 [0x19]).Inv ∧
    (nextOf (runToBoundary 1 (start 0 0 0 [0x19]))).map runEnd = some (true, 6) ∧
    State.Inv { start 0 0 0 [] with halt := true, outc := 3 } ∧
    (nextOf (runToBoundary 0 { start 0 0 0 [] with halt := true, outc := 3 })).map runEnd = some (true, 3) := by decide
theorem witness_RunDoesNotDependOnFuel : (nextOf (runToBoundary 1 (start 0 0 0 [0x19]))).map runEnd = some (true, 6) := by decide
theorem witness_RunKeepsInpAndProg : (nextOf (runToBoundary 1 (start 0 0 0 [0x19]))).map runEnd = some (true, 6) ∧
    (nextOf (runToBoundary 1 (start 0 0 0 [0x16]))).map runEnd = some (false, 0) ∧
    (nextOf (transact (.run 1) (.idle (start 0 0 0 [0x16])))).map (fun x => (x.1.busy, x.2)) = some (true, .running) := by
  decide
set_option maxRecDepth 20000 in
theorem witness_LoadStoresTheImage : Memory.wf [(7, 1)] = true ∧ (List.replicate 256 (0 : Byte)).length = 256 ∧
    (List.replicate 255 (0 : Byte)).length ≠ 256 := by decide
theorem witness_ReadTransactionsChangeNothing : 6 ≤ (6 : Byte).toNat := by decide
theorem witness_AssembledImageIs256Bytes : (assemble "sta 1".toList).isOk = true := by decide
theorem witness_SourceTextAssemblesToItsEncoding : (encodeAll [.sta 1, .add]).length ≤ 256 ∧
    Claim.sourceText [.sta 10, .add] = "sta 10\nadd\n".toList := by decide

end Sys2Proof.Tests
end

section
/-! The obligations about the memory primitives (20_memory.md). -/

namespace Sys2Proof.Machine

/-- A replaced space is all that differs: with the three spaces put back, the state is the one before (R60). -/
theorem State.restoreSpaces_setSpace (s : State) (sp : Space) (m : Memory) :
    { s.setSpace sp m with prog := s.prog, ram := s.ram, vram := s.vram } = s := by
  cases sp <;> rfl

/-- Settles O48: the read-after-write law at the written byte and at every other, and the frame of a replaced space. -/
theorem memWriteStoresOneByte : Obligations.MemWriteStoresOneByte := by
  intro s sp addr v hwf
  have hread (sq : Space) (addr' : Byte) :
      memRead sq addr' (memWrite sp addr v s) = if sq = sp ∧ addr' = addr then v else memRead sq addr' s :=
    memRead_memWrite (State.space_wf hwf sp)
  refine ⟨?same, ?other, ?frame⟩
  case same => exact (hread sp addr).trans (if_pos ⟨rfl, rfl⟩)
  case other => exact fun sq addr' hne => (hread sq addr').trans (if_neg hne)
  case frame => exact s.restoreSpaces_setSpace sp _

end Sys2Proof.Machine
end

section
/-! The obligation about the decoder's table (30_encoding.md). -/

namespace Sys2Proof

/-- What a catalog row has to build to be the row of an id: a whole instruction with that opcode byte and no operand, or, from
every operand byte, an instruction with that opcode byte and that operand (R102, R103). -/
def Shape.HasId (op : Byte) : Shape → Prop
  | .bare i => i.opcode = op ∧ i.operand? = none
  | .withOperand build => ∀ v, (build v).opcode = op ∧ (build v).operand? = some v

/-- The ids 0 to 25 all have a row (R104). -/
theorem catalog_isSome {n : Nat} (h : n ≤ 25) : (catalog n).isSome := by
  interval_cases n <;> rfl

/-- A row of the catalog stands at its own id, row by row of the table (R104). -/
theorem catalog_hasId {n : Nat} {row : Shape} (h : catalog n = some row) : row.HasId (BitVec.ofNat 8 n) := by
  unfold catalog at h
  split at h <;> cases h <;> simp [Shape.HasId, Instr.opcode, Instr.operand?]

/-- A byte up to 25 decodes to the row of that id (R105). -/
theorem decodeOpcode_known {op : Byte} (h : op.toNat ≤ 25) : ∃ row, decodeOpcode op = some row ∧ row.HasId op := by
  obtain ⟨row, hrow⟩ := Option.isSome_iff_exists.mp (catalog_isSome h)
  have hid : row.HasId (BitVec.ofNat 8 op.toNat) := catalog_hasId hrow
  rw [BitVec.ofNat_toNat, BitVec.setWidth_eq] at hid
  exact ⟨row, hrow, hid⟩

/-- Settles O3: below 26 the row the catalog holds is that of the byte, in either of its two shapes; from 26 on there is none. -/
theorem decoderIsBoundsChecked : Obligations.DecoderIsBoundsChecked := by
  refine fun op => ⟨fun hle => ?known, Machine.decodeOpcode_unknown⟩
  case known =>
    obtain ⟨row, hrow, hid⟩ := decodeOpcode_known hle
    cases row with
    | bare i => exact .inl ⟨i, hrow, hid⟩
    | withOperand build => exact .inr ⟨build, hrow, hid⟩

end Sys2Proof
end

section
/-! The obligation about what a step fetches (40_execution.md). -/

namespace Sys2Proof

/-- The row at the opcode byte of an instruction without an operand is the instruction itself (R103, R104). -/
theorem decodeOpcode_opcode_of_operand_none {i : Instr} (h : i.operand? = none) :
    decodeOpcode i.opcode = some (.bare i) := by
  cases i <;> cases h <;> rfl

/-- The row at the opcode byte of an instruction with an operand builds the instruction from that operand (R102 to R104). -/
theorem decodeOpcode_opcode_of_operand_some {i : Instr} {v : Byte} (h : i.operand? = some v) :
    ∃ build, decodeOpcode i.opcode = some (.withOperand build) ∧ build v = i := by
  cases i <;> cases h <;> exact ⟨_, rfl, rfl⟩

namespace Machine

/-- The address after a byte's, cut to a byte, is the byte's successor. -/
theorem trunc8_toNat_add_one (addr : Byte) : trunc8 (addr.toNat + 1) = addr + 1 := by
  unfold trunc8
  bv_omega

/-- The fetch of a row without an operand gives its instruction at every IP (R151, R153). -/
theorem fetchDecode_bare {s : State} {i : Instr} (h : decodeOpcode (memRead .prog s.ip s) = some (.bare i)) :
    fetchDecode s = .instruction i := by
  simp only [fetchDecode, h]

/-- The fetch of a row with an operand, except at IP = 255, builds the instruction from the byte at IP + 1 (R153, R154). -/
theorem fetchDecode_withOperand {s : State} {build : Byte → Instr}
    (h : decodeOpcode (memRead .prog s.ip s) = some (.withOperand build)) (hip : s.ip.toNat ≠ 255) :
    fetchDecode s = .instruction (build (memRead .prog (s.ip + 1) s)) := by
  simp only [fetchDecode, h, operandInBounds_one.mpr hip, if_true, trunc8_toNat_add_one]

/-- A running step executes the instruction its fetch gives (R160). -/
theorem step_of_fetchDecode {s : State} {i : Instr} (hrun : s.halt = false) (hf : fetchDecode s = .instruction i) :
    step s = exec i s := by
  simp [step, hrun, hf]

/-- Settles O33: by whether the instruction has an operand, the fetch gives it back from its opcode byte and operand byte. -/
theorem stepRunsTheBytesAtIp : Obligations.StepRunsTheBytesAtIp := by
  intro s i hrun hop hbytes
  refine step_of_fetchDecode hrun ?fetch
  cases hv : i.operand? with
  | none =>
    have hrow := decodeOpcode_opcode_of_operand_none hv
    exact fetchDecode_bare (hop ▸ hrow)
  | some v =>
    obtain ⟨hip, hoperand⟩ := hbytes v hv
    obtain ⟨build, hrow, hbuild⟩ := decodeOpcode_opcode_of_operand_some hv
    calc fetchDecode s
      _ = .instruction (build (memRead .prog (s.ip + 1) s)) := fetchDecode_withOperand (hop ▸ hrow) (by omega)
      _ = .instruction i := by rw [hoperand, hbuild]

end Machine

end Sys2Proof
end

section
/-! The obligation about the layout of the frame buffer (60_exceptions.md). -/

namespace Sys2Proof.Machine

/-- With both coordinates below 16 the cut to a byte loses nothing of a pixel's index (R331). -/
theorem pixelIndex_toNat (x y : Fin 16) : (pixelIndex x y).toNat = x.val + 16 * y.val := by
  have hfits : x.val + 16 * y.val < 2 ^ 8 := by omega
  exact (BitVec.toNat_ofNat _ _).trans (Nat.mod_eq_of_lt hfits)

/-- Every index is that of its own column and row, remainder and quotient by 16 (R331). -/
theorem pixelIndex_of_coordinates {x y : Fin 16} {index : Byte} (hx : x.val = pixelX index) (hy : y.val = pixelY index) :
    pixelIndex x y = index := by
  apply BitVec.eq_of_toNat_eq
  calc (pixelIndex x y).toNat
    _ = x.val + 16 * y.val := pixelIndex_toNat x y
    _ = index.toNat % 16 + 16 * (index.toNat / 16) := by rw [hx, hy]; rfl
    _ = index.toNat := Nat.mod_add_div _ _

/-- Settles O58: a pixel's index does not wrap, and division with remainder by 16 gives the coordinates of an index back. -/
theorem pixelIndexIsRowMajor : Obligations.PixelIndexIsRowMajor := by
  refine ⟨pixelIndex_toNat, fun index => ?coordinates⟩
  case coordinates =>
    have hcolumn : pixelX index < 16 := Nat.mod_lt _ (by decide)
    have hrow : pixelY index < 16 := Nat.div_lt_of_lt_mul index.isLt
    exact ⟨⟨pixelX index, hcolumn⟩, ⟨pixelY index, hrow⟩, pixelIndex_of_coordinates rfl rfl, rfl, rfl, rfl, rfl⟩

end Sys2Proof.Machine
end

section
/-! The obligations about the encoding (30_encoding.md). -/

namespace Sys2Proof

/-! ## One instruction -/

/-- A byte that decodes to a row decodes to the row of its own id (R105). -/
theorem decodeOpcode_hasId {op : Byte} {row : Shape} (h : decodeOpcode op = some row) : row.HasId op := by
  have hid : row.HasId (BitVec.ofNat 8 op.toNat) := catalog_hasId h
  rwa [BitVec.ofNat_toNat, BitVec.setWidth_eq] at hid

/-- A byte with no row is no id of the catalog (R106). -/
theorem unknown_of_decodeOpcode {op : Byte} (h : decodeOpcode op = none) : 26 ≤ op.toNat := by
  by_contra hlt
  obtain ⟨row, hrow, -⟩ := decodeOpcode_known (op := op) (by omega)
  exact absurd (h.symm.trans hrow) nofun

/-- The opcode byte of every instruction is in the catalog's range (R104). -/
theorem Instr.opcode_toNat_le (i : Instr) : i.opcode.toNat ≤ 25 := by
  cases i <;> simp [Instr.opcode]

theorem encode_of_operand_none {i : Instr} (h : i.operand? = none) : encode i = [i.opcode] := by
  simp [encode, h]

theorem encode_of_operand_some {i : Instr} {v : Byte} (h : i.operand? = some v) : encode i = [i.opcode, v] := by
  simp [encode, h]

theorem decode_bare {op : Byte} {i : Instr} (h : decodeOpcode op = some (.bare i)) (rest : List Byte) :
    decode (op :: rest) = .ok (i, rest) := by
  simp only [decode, h]

theorem decode_withOperand {op : Byte} {build : Byte → Instr} (h : decodeOpcode op = some (.withOperand build))
    (operand : Byte) (after : List Byte) : decode (op :: operand :: after) = .ok (build operand, after) := by
  simp only [decode, h]

/-- Decoding an encoded instruction gives it back with the bytes after it (R100 to R105). -/
theorem decode_encode_append (i : Instr) (after : List Byte) : decode (encode i ++ after) = .ok (i, after) := by
  cases hv : i.operand? with
  | none =>
    rw [encode_of_operand_none hv]
    exact decode_bare (decodeOpcode_opcode_of_operand_none hv) after
  | some v =>
    obtain ⟨build, hrow, hbuild⟩ := decodeOpcode_opcode_of_operand_some hv
    rw [encode_of_operand_some hv]
    exact hbuild ▸ decode_withOperand hrow v after

/-- What decodes to an instruction begins with its encoding, and the rest is what follows it. -/
theorem eq_encode_append_of_decode {bytes after : List Byte} {i : Instr} (h : decode bytes = .ok (i, after)) :
    bytes = encode i ++ after := by
  cases bytes with
  | nil => cases h
  | cons op rest =>
    cases hrow : decodeOpcode op with
    | none => simp [decode, hrow] at h
    | some row =>
      have hid := decodeOpcode_hasId hrow
      cases row with
      | bare j =>
        obtain ⟨hop, hnone⟩ := hid
        cases (decode_bare hrow rest).symm.trans h
        rw [encode_of_operand_none hnone, hop, List.singleton_append]
      | withOperand build =>
        cases rest with
        | nil => simp [decode, hrow] at h
        | cons operand tail =>
          obtain ⟨hop, hsome⟩ := hid operand
          cases (decode_withOperand hrow operand tail).symm.trans h
          rw [encode_of_operand_some hsome, hop]
          rfl

/-- Settles O1: the decoder undoes the encoder by the row at the opcode byte, and what it reads is what the row of its id
encodes to. -/
theorem decodeInvertsEncode : Obligations.DecodeInvertsEncode :=
  fun _ after i => ⟨eq_encode_append_of_decode, fun h => h ▸ decode_encode_append i after⟩

/-! ## Sequences of instructions -/

@[simp] theorem encodeAll_nil : encodeAll [] = [] := rfl

@[simp] theorem encodeAll_cons (i : Instr) (is : List Instr) : encodeAll (i :: is) = encode i ++ encodeAll is := rfl

/-- Sequential decoding of bytes that begin with an encoded instruction goes on behind it. -/
theorem decodeSequence_encode_append {bound : Nat} {i : Instr} {is : List Instr} {after : List Byte}
    (h : decodeSequence bound after = .ok is) : decodeSequence (bound + 1) (encode i ++ after) = .ok (i :: is) := by
  have hdecode := decode_encode_append i after
  rw [encode, List.cons_append] at hdecode ⊢
  simp only [decodeSequence, hdecode, h]

/-- Settles O2, by induction on the instructions: each takes one unit of the bound and at least one byte. -/
theorem denseSequencesDecode : Obligations.DenseSequencesDecode := by
  intro is
  induction is with
  | nil => exact fun bound _ => by cases bound <;> rfl
  | cons i is ih =>
    intro bound hbound
    simp only [encodeAll_cons, encode, List.cons_append, List.length_cons, List.length_append] at hbound
    cases bound with
    | zero => omega
    | succ bound => exact decodeSequence_encode_append (ih bound (by omega))

/-- Settles O4: each word is written out and decoded. -/
theorem sampleWordsDecode : Obligations.SampleWordsDecode := by
  refine ⟨rfl, rfl, rfl, rfl, rfl, rfl, rfl, rfl, rfl, rfl, rfl⟩

/-! ## Mnemonics -/

namespace Machine

/-- The mnemonic of an instruction is that of its opcode byte, whatever its operand (R104). -/
theorem mnemonicOfOpcode_opcode (i : Instr) : mnemonicOfOpcode i.opcode = some (mnemonicOf i) := by
  cases i <;> rfl

theorem opcode_mem_catalogIds (i : Instr) : i.opcode ∈ catalogIds :=
  List.mem_map.mpr ⟨i.opcode.toNat, List.mem_range.mpr (Nat.lt_succ_of_le i.opcode_toNat_le), by simp⟩

/-- The 26 mnemonics are distinct: looking the one of an id up finds that id (R124). -/
theorem opcodeOfMnemonic_of_catalogIds :
    ∀ op ∈ catalogIds, (mnemonicOfOpcode op).bind opcodeOfMnemonic = some op := by decide

/-- Settles O5: the mnemonic of an instruction is its id's, and that one is found at the id. -/
theorem mnemonicsRoundTrip : Obligations.MnemonicsRoundTrip := by
  intro i
  have hmnemonic := mnemonicOfOpcode_opcode i
  have hlookup := opcodeOfMnemonic_of_catalogIds _ (opcode_mem_catalogIds i)
  rw [hmnemonic] at hlookup
  exact ⟨hlookup, hmnemonic⟩

end Machine

end Sys2Proof
end

section
/-! The obligations about each instruction: its result, what it leaves alone, and how its step ends (40_execution.md to
45_frame.md). -/

namespace Sys2Proof.Machine

/-! ## The ends of a step, field by field -/

theorem State.record_endOfProgram (s : State) :
    s.record .endOfProgram = { s with outc := 3, outp := 0x00, halt := true } := by
  simp [State.record, StepOutcome.code, StepOutcome.payload, StepOutcome.halting]

theorem State.record_argOutOfBounds (s : State) :
    s.record .argOutOfBounds = { s with outc := 4, outp := 0x00, halt := true } := by
  simp [State.record, StepOutcome.code, StepOutcome.payload, StepOutcome.halting]

theorem State.record_divisionByZero (s : State) :
    s.record .divisionByZero = { s with outc := 7, outp := 0x00, halt := true } := by
  simp [State.record, StepOutcome.code, StepOutcome.payload, StepOutcome.halting]

theorem State.record_unknownOp (s : State) (op : Byte) :
    s.record (.unknownOp op) = { s with outc := 5, outp := op, halt := true } := by
  simp [State.record, StepOutcome.code, StepOutcome.payload, StepOutcome.halting]

theorem State.transfer_eq (s : State) (target : Byte) :
    s.transfer target = { s with ip := target, outc := 0, outp := 0x00 } := by
  simp [State.transfer, State.record, State.setIp, StepOutcome.code, StepOutcome.payload, StepOutcome.halting]

/-- An instruction reports Continue or Flush: HALT stays as it was and the payload is 0x00 (R306, R311). -/
theorem State.record_reportOf (s : State) (i : Instr) :
    s.record (reportOf i) = { s with outc := (reportOf i).code, outp := 0x00 } := by
  unfold reportOf
  split <;> simp [State.record, StepOutcome.payload, StepOutcome.halting]

/-! ## The three ways an instruction's step ends -/

theorem operandInBounds_iff {arity : Nat} {s : State} : operandInBounds arity s = true ↔ s.ip.toNat + arity ≤ 255 :=
  decide_eq_true_iff

theorem operandInBounds_eq_false {arity : Nat} {s : State} :
    operandInBounds arity s = false ↔ 255 < s.ip.toNat + arity := by
  simp [operandInBounds]

@[simp] theorem effectOf_ip (i : Instr) (s : State) : (effectOf i s).ip = s.ip := (effectOf_keeps i s).1

theorem arity_of_operand_none {i : Instr} (h : i.operand? = none) : i.arity = 0 := by
  simp [Instr.arity, Instr.format, h]

theorem arity_of_operand_some {i : Instr} {v : Byte} (h : i.operand? = some v) : i.arity = 1 := by
  simp [Instr.arity, Instr.format, h]

/-- Only an instruction with an operand transfers control, and its operand is the target (R156). -/
theorem operand_of_transferOf {i : Instr} {s : State} {target : Byte} (h : transferOf s i = some target) :
    i.operand? = some target := by
  cases i with
  | jmp v => exact h
  | jnz v =>
    simp only [transferOf] at h
    split at h
    · exact h
    · cases h
  | _ => cases h

/-- An instruction that transfers control does not divide by zero. -/
theorem not_mod_of_transferOf {i : Instr} {s : State} {target : Byte} (h : transferOf s i = some target) :
    ¬ (i = .mod ∧ s.a = 0x00) := by
  rintro ⟨rfl, -⟩
  cases h

/-- An instruction that transfers control writes nothing in stage E (R181, R182). -/
theorem effectOf_of_transferOf {i : Instr} {s : State} {target : Byte} (h : transferOf s i = some target) :
    effectOf i s = s := by
  cases i with
  | jmp v => rfl
  | jnz v => rfl
  | _ => cases h

/-- The step of an instruction that neither divides by zero nor transfers control. -/
theorem exec_sequential {i : Instr} {s : State} (hmod : ¬ (i = .mod ∧ s.a = 0x00)) (htransfer : transferOf s i = none) :
    exec i s = runSequential i.arity (reportOf i) (effectOf i) s := by
  rw [exec_eq, if_neg hmod, htransfer]

/-- An instruction whose operand lies inside the image advances from its stage E (R153, R160). -/
theorem runSequential_inBounds {arity : Nat} {report : StepOutcome} {effect : State → State} {s : State}
    (h : s.ip.toNat + arity ≤ 255) : runSequential arity report effect s = .next ((effect s).advance arity report) :=
  if_pos (operandInBounds_iff.mpr h)

/-- An advance that fits, from stage E of the state at the start of the step (R157, R159). -/
theorem runSequential_fits {i : Instr} {s : State} (h : s.ip.toNat + 1 + i.arity ≤ 255) :
    runSequential i.arity (reportOf i) (effectOf i) s =
      .next { effectOf i s with
        ip := BitVec.ofNat 8 (s.ip.toNat + 1 + i.arity), outc := (reportOf i).code, outp := 0x00 } := by
  rw [runSequential_inBounds (by omega), State.advance_fits (by rwa [effectOf_ip]), State.record_reportOf, effectOf_ip]
  rfl

/-- An advance that passes the end of the image (R158). -/
theorem runSequential_ends {i : Instr} {s : State} (hbounds : s.ip.toNat + i.arity ≤ 255)
    (h : 255 < s.ip.toNat + 1 + i.arity) :
    runSequential i.arity (reportOf i) (effectOf i) s =
      .next { effectOf i s with outc := 3, outp := 0x00, halt := true } := by
  rw [runSequential_inBounds hbounds, State.advance_ends (by rwa [effectOf_ip]), State.record_endOfProgram]

/-- An operand past the end of the image: nothing is executed (R153). -/
theorem runSequential_outOfBounds {arity : Nat} {report : StepOutcome} {effect : State → State} {s : State}
    (h : 255 < s.ip.toNat + arity) :
    runSequential arity report effect s = .next { s with outc := 4, outp := 0x00, halt := true } := by
  rw [runSequential, if_neg (mt operandInBounds_iff.mp (by omega)), raise, State.record_argOutOfBounds]

/-- A one-byte instruction ends as its stage E and its report say. -/
theorem endsAsF0_of_effectOf {i : Instr} {s : State} {effect : State → State} (hoperand : i.operand? = none)
    (hmod : ¬ (i = .mod ∧ s.a = 0x00)) (heffect : effectOf i s = effect s) :
    Claim.endsAsF0 i (reportOf i).code effect s := by
  have harity := arity_of_operand_none hoperand
  have htransfer : transferOf s i = none :=
    Option.eq_none_iff_forall_ne_some.mpr fun target h => absurd (hoperand.symm.trans (operand_of_transferOf h)) nofun
  rw [Claim.endsAsF0, exec_sequential hmod htransfer, ← heffect]
  refine ⟨fun hip => ?fits, fun hip => ?ends⟩
  case fits =>
    rw [runSequential_fits (by omega), harity]
  case ends => exact runSequential_ends (by omega) (by omega)

/-- A two-byte instruction that does not transfer control ends as its stage E says. -/
theorem endsAsF1_of_effectOf {i : Instr} {v : Byte} {s : State} {effect : State → State}
    (hoperand : i.operand? = some v) (htransfer : transferOf s i = none) (heffect : effectOf i s = effect s) :
    Claim.endsAsF1 i effect s := by
  have harity := arity_of_operand_some hoperand
  have hmod : ¬ (i = .mod ∧ s.a = 0x00) := by
    rintro ⟨rfl, -⟩
    cases hoperand
  have hreport : reportOf i = .continue_ := if_neg (by rintro rfl; cases hoperand)
  rw [Claim.endsAsF1, exec_sequential hmod htransfer, ← heffect]
  refine ⟨fun hip => ?fits, fun hip => ?ends, fun hip => runSequential_outOfBounds (by omega)⟩
  case fits =>
    rw [runSequential_fits (by omega), harity, hreport]
    rfl
  case ends => exact runSequential_ends (by omega) (by omega)

/-- A taken transfer ends at its target (R156). -/
theorem endsAsTransfer_of_transferOf {i : Instr} {target : Byte} {s : State} (h : transferOf s i = some target) :
    Claim.endsAsTransfer i target s := by
  have hexec : exec i s = runTransfer target s := by rw [exec_eq, if_neg (not_mod_of_transferOf h), h]
  rw [Claim.endsAsTransfer, hexec]
  refine ⟨fun hip => ?inside, fun hip => ?outside⟩
  case inside =>
    rw [runTransfer, if_pos (operandInBounds_one.mpr (by omega)), State.transfer_eq]
  case outside =>
    rw [runTransfer, if_neg (mt operandInBounds_one.mp (by omega)), raise, State.record_argOutOfBounds]

/-- A one-byte instruction other than mod. -/
theorem endsAsF0_of_ne_mod {i : Instr} {s : State} {effect : State → State} (hoperand : i.operand? = none)
    (hmod : i ≠ .mod) (heffect : effectOf i s = effect s) : Claim.endsAsF0 i (reportOf i).code effect s :=
  endsAsF0_of_effectOf hoperand (fun h => hmod h.1) heffect

/-! ## Control -/

/-- Settles O6: noop has the empty stage E. -/
theorem noopOnlyAdvances : Obligations.NoopOnlyAdvances :=
  fun _ => endsAsF0_of_ne_mod rfl nofun rfl

/-- Settles O7: jmp transfers from every state. -/
theorem jmpSetsIp : Obligations.JmpSetsIp :=
  fun _ _ => endsAsTransfer_of_transferOf rfl

theorem transferOf_jnz (target : Byte) (s : State) :
    transferOf s (.jnz target) = if s.b = 0x00 then none else some target := by
  by_cases hb : s.b = 0x00 <;> simp [transferOf, bNonZero, hb]

/-- Settles O8: jnz transfers exactly when B is not 0, and else has the empty stage E. -/
theorem jnzTestsB : Obligations.JnzTestsB := by
  intro target s
  have htransfer := transferOf_jnz target s
  exact ⟨rfl, fun hb => endsAsTransfer_of_transferOf (htransfer.trans (if_neg hb)),
    fun hb => endsAsF1_of_effectOf rfl (htransfer.trans (if_pos hb)) rfl⟩

/-! ## Registers -/

/-- Settles O9: stage E of sta moves the operand to A. -/
theorem staSetsA : Obligations.StaSetsA :=
  fun _ _ => ⟨rfl, endsAsF1_of_effectOf rfl rfl rfl⟩

/-- Settles O10: stage E of stb moves the operand to B. -/
theorem stbSetsB : Obligations.StbSetsB :=
  fun _ _ => ⟨rfl, endsAsF1_of_effectOf rfl rfl rfl⟩

/-- Settles O11: stage E of swp exchanges A and B. -/
theorem swpExchangesAB : Obligations.SwpExchangesAB :=
  fun _ => endsAsF0_of_ne_mod rfl nofun rfl

/-! ## Memory and input -/

/-- Settles O12: stage E of mvr and of mva stores B in RAM. -/
theorem ramStoresWriteB : Obligations.RamStoresWriteB :=
  fun _ => ⟨fun _ => endsAsF1_of_effectOf rfl rfl rfl, endsAsF0_of_ne_mod rfl nofun rfl⟩

/-- Settles O13: stage E of rdr and of rda moves a RAM byte to B. -/
theorem ramLoadsReadToB : Obligations.RamLoadsReadToB :=
  fun _ => ⟨fun _ => endsAsF1_of_effectOf rfl rfl rfl, endsAsF0_of_ne_mod rfl nofun rfl⟩

/-- Settles O14: stage E of mvv stores the operand in VRAM at A, and that of rev moves the byte there to B. -/
theorem vramAccessesAreAtA : Obligations.VramAccessesAreAtA :=
  fun _ => ⟨fun _ => endsAsF1_of_effectOf rfl rfl rfl, endsAsF0_of_ne_mod rfl nofun rfl⟩

/-- Settles O15: stage E of rdi moves INP under the mask to B. -/
theorem rdiReadsInpThroughMask : Obligations.RdiReadsInpThroughMask :=
  fun _ _ => endsAsF1_of_effectOf rfl rfl rfl

/-! ## ALU -/

/-- Cutting to a byte is the remainder by 256 (R13). -/
theorem trunc8_mod (n : Nat) : trunc8 (n % 256) = trunc8 n := by
  apply BitVec.eq_of_toNat_eq
  simp [trunc8]

theorem aluMod_eq (b a : Byte) : aluMod b a = BitVec.ofNat 8 (b.toNat - a.toNat * (b.toNat / a.toNat)) :=
  congrArg trunc8 (Nat.mod_eq_sub_mul_div ..)

theorem aluNot_eq (b : Byte) : aluNot b = ~~~b := by
  unfold aluNot trunc8
  bv_omega

theorem aluInc_eq (a : Byte) : aluInc a = a + 1 := trunc8_toNat_add_one a

theorem aluDec_eq (a : Byte) : aluDec a = a - 1 := by
  unfold aluDec trunc8
  bv_omega

theorem aluShl_eq (v n : Byte) : aluShl v n = v <<< n.toNat := by
  apply BitVec.eq_of_toNat_eq
  simp [aluShl, shiftLeftUnder, shiftAmount, Config.shiftWide, trunc8, Nat.shiftLeft_eq]

theorem aluShr_eq (v n : Byte) : aluShr v n = v >>> n.toNat := by
  have hlt : v.toNat / 2 ^ n.toNat < 2 ^ 8 := (Nat.div_le_self _ _).trans_lt v.isLt
  apply BitVec.eq_of_toNat_eq
  rw [BitVec.toNat_ushiftRight, Nat.shiftRight_eq_div_pow]
  exact (BitVec.toNat_ofNat _ _).trans (Nat.mod_eq_of_lt hlt)

/-- Settles O16: the cut to a byte is the remainder by 256. -/
theorem addWrapsModulo256 : Obligations.AddWrapsModulo256 :=
  fun s => ⟨rfl, endsAsF0_of_ne_mod rfl nofun (congrArg s.setB (trunc8_mod _).symm)⟩

/-- Settles O17: the cut to a byte is the remainder by 256. -/
theorem mulKeepsLowByte : Obligations.MulKeepsLowByte :=
  fun s => endsAsF0_of_ne_mod rfl nofun (congrArg s.setB (trunc8_mod _).symm)

/-- Settles O18: the remainder is what division leaves over, and is below a divisor that is not 0. -/
theorem modTakesRemainder : Obligations.ModTakesRemainder := by
  intro s ha
  have hpos : 0 < s.a.toNat := Nat.pos_of_ne_zero fun h => ha (BitVec.eq_of_toNat_eq h)
  refine ⟨endsAsF0_of_effectOf rfl (fun h => ha h.2) (congrArg s.setB (aluMod_eq s.b s.a)), ?below⟩
  case below => exact Nat.mod_eq_sub_mul_div .. ▸ Nat.mod_lt _ hpos

/-- Settles O19: mod asks for A = 0 before its bounds check and its stage E. -/
theorem modByZeroHalts : Obligations.ModByZeroHalts := by
  intro s ha
  rw [exec_eq, if_pos ⟨rfl, ha⟩, raise, State.record_divisionByZero]

/-- Settles O20: stage E of or, and, xor. -/
theorem logicInstructionsAreBitwise : Obligations.LogicInstructionsAreBitwise :=
  fun _ => ⟨endsAsF0_of_ne_mod rfl nofun rfl, endsAsF0_of_ne_mod rfl nofun rfl, endsAsF0_of_ne_mod rfl nofun rfl⟩

/-- Settles O21: 255 minus a byte is its complement. -/
theorem notComplementsB : Obligations.NotComplementsB :=
  fun s => endsAsF0_of_ne_mod rfl nofun (congrArg s.setB (aluNot_eq s.b))

/-- Settles O22: multiplying and dividing by a power of two are the logical shifts, whatever the amount. -/
theorem shiftsAreLogical : Obligations.ShiftsAreLogical :=
  fun amount s => ⟨endsAsF1_of_effectOf rfl rfl (congrArg s.setB (aluShl_eq s.b amount)),
    endsAsF1_of_effectOf rfl rfl (congrArg s.setB (aluShr_eq s.b amount))⟩

/-- Settles O23: the cut sums are those of 8-bit addition and subtraction. -/
theorem countersWrapModulo256 : Obligations.CountersWrapModulo256 :=
  fun s => ⟨endsAsF0_of_ne_mod rfl nofun (congrArg s.setA (aluInc_eq s.a)),
    endsAsF0_of_ne_mod rfl nofun (congrArg s.setA (aluDec_eq s.a))⟩

/-! ## Frame -/

/-- Settles O24: stage E of flv fills VRAM, and a filled memory reads the value at every address. -/
theorem flvFillsVram : Obligations.FlvFillsVram :=
  fun _ _ => ⟨endsAsF1_of_effectOf rfl rfl rfl, fun addr => Memory.read_fill _ addr.isLt⟩

/-- Where rev answers at all, B takes the VRAM byte at A (R205). -/
theorem exec_rev_loads (s : State) : ∃ u, exec .rev s = .next u ∧ u.b = memRead .vram s.a s := by
  obtain ⟨hfits, hends⟩ := (vramAccessesAreAtA s).2
  have hlt := s.ip.isLt
  by_cases hip : s.ip.toNat = 255
  · exact ⟨_, hends hip, rfl⟩
  · exact ⟨_, hfits (by omega), rfl⟩

/-- Settles O25: flv answers the filled VRAM, in which rev reads the value at every address. -/
theorem revAfterFlvReadsTheFill : Obligations.RevAfterFlvReadsTheFill := by
  intro value addr s hip
  obtain ⟨⟨hfits, -, -⟩, hread⟩ := flvFillsVram value s
  obtain ⟨u, hrev, hb⟩ := exec_rev_loads
    { s with vram := Memory.fill value, ip := BitVec.ofNat 8 (s.ip.toNat + 2), outc := 0, outp := 0x00, a := addr }
  exact ⟨_, u, hfits hip, hrev, hb.trans (hread addr)⟩

/-- Settles O26: fsh has the empty stage E and reports Flush, whose code is 6. -/
theorem fshReportsFlush : Obligations.FshReportsFlush :=
  fun _ => ⟨rfl, endsAsF0_of_ne_mod rfl nofun rfl⟩

end Sys2Proof.Machine
end

section
/-! The obligations about what every instruction leaves unchanged (10_state.md, 20_memory.md). -/

namespace Sys2Proof.Machine

/-! ## What exec does to registers and memory -/

/-- Two states hold the same A, B, INP and spaces: they differ at most in IP and in the status fields. -/
def State.SameData (s t : State) : Prop :=
  t.a = s.a ∧ t.b = s.b ∧ t.inp = s.inp ∧ ∀ sp, t.space sp = s.space sp

theorem State.record_sameData (s : State) (o : StepOutcome) : s.SameData (s.record o) := by
  obtain ⟨ha, hb, -, hinp, hspace⟩ := s.record_frame o
  exact ⟨ha, hb, hinp, hspace⟩

theorem State.SameData.memRead_eq {s t : State} (h : s.SameData t) (sp : Space) (addr : Byte) :
    memRead sp addr t = memRead sp addr s := by
  obtain ⟨-, -, -, hspace⟩ := h
  rw [memRead, hspace sp, memRead]

/-- The outcome of an instruction's end is no fault (R303, R306). -/
theorem reportOf_isFault (i : Instr) : (reportOf i).isFault = false := by
  unfold reportOf
  split <;> rfl

/-- What a meaning does to registers and memory: it records a fault and nothing else, or its stage E is done and no fault is
recorded (R314). -/
theorem exec_fault_or_effect {i : Instr} {s t : State} (h : exec i s = .next t) :
    (∃ o : StepOutcome, o.isFault = true ∧ (i ≠ .mod → o = .argOutOfBounds) ∧ t = s.record o) ∨
      (t.outcome.isFault = false ∧ (effectOf i s).SameData t) := by
  rcases exec_cases h with ⟨rfl, -, rfl⟩ | ⟨-, rfl⟩ | ⟨target, htransfer, -, rfl⟩ | ⟨-, -, -, rfl⟩
  · exact .inl ⟨_, rfl, fun hne => absurd rfl hne, rfl⟩
  · exact .inl ⟨_, rfl, fun _ => rfl, rfl⟩
  · rw [effectOf_of_transferOf htransfer]
    exact .inr ⟨rfl, rfl, rfl, rfl, fun sp => by cases sp <;> rfl⟩
  · refine .inr ⟨?outcome, State.advance_frame ..⟩
    rw [State.advance_outcome]
    split
    · exact reportOf_isFault i
    · rfl

/-- Whatever stage E keeps of registers and memory, exec keeps. -/
theorem exec_sameData {i : Instr} {s t : State} (h : exec i s = .next t) :
    s.SameData t ∨ (effectOf i s).SameData t := by
  rcases exec_fault_or_effect h with ⟨o, -, -, rfl⟩ | ⟨-, hdata⟩
  · exact .inl (s.record_sameData o)
  · exact .inr hdata

/-! ## What stage E writes -/

theorem effectOf_a {i : Instr} (h : Claim.writesA i = false) (s : State) : (effectOf i s).a = s.a := by
  cases i <;> cases h <;> rfl

theorem effectOf_b {i : Instr} (h : Claim.writesB i = false) (s : State) : (effectOf i s).b = s.b := by
  cases i <;> cases h <;> rfl

theorem effectOf_space {i : Instr} (h : Claim.stores i = false) (s : State) (sp : Space) :
    (effectOf i s).space sp = s.space sp := by
  cases i <;> cases h <;> cases sp <;> rfl

/-- Stage E of an instruction with a store target is one store at the address its target computes (R70, R207). -/
theorem effectOf_of_storeTarget {i : Instr} {s : State} {target : Target} {sp : Space} {addr : Byte}
    (htarget : Claim.storeTarget i = some target) (hat : target.storedAt s = some (sp, addr)) :
    effectOf i s = memWrite sp addr (Claim.storedByte s i) s := by
  cases i <;> cases htarget <;> cases hat <;> rfl

/-! ## The frames -/

/-- Settles O27: a register that stage E leaves alone is left alone by exec, and stage E never writes INP or PROG. -/
theorem registerWritersAreTheNamedOnes : Obligations.RegisterWritersAreTheNamedOnes := by
  intro i s t h
  rcases exec_sameData h with ⟨ha, hb, hinp, hspace⟩ | ⟨ha, hb, hinp, hspace⟩
  · exact ⟨fun _ => ha, fun _ => hb, hinp, hspace .prog⟩
  · obtain ⟨-, hkeepsInp, hkeepsProg, -⟩ := effectOf_keeps i s
    exact ⟨fun hA => ha.trans (effectOf_a hA s), fun hB => hb.trans (effectOf_b hB s), hinp.trans hkeepsInp,
      (hspace .prog).trans hkeepsProg⟩

/-- Settles O28: stage E of an instruction that stores nothing leaves the three spaces alone. -/
theorem nonStoringInstructionsKeepMemory : Obligations.NonStoringInstructionsKeepMemory := by
  intro i s t hstores h sp addr
  rcases exec_sameData h with hdata | hdata
  · exact hdata.memRead_eq sp addr
  · rw [hdata.memRead_eq, memRead, effectOf_space hstores, memRead]

/-- Settles O29: a fault leaves every byte, and stage E is one store, so the read-after-write law gives every byte after
it. -/
theorem storingInstructionsChangeOneByte : Obligations.StoringInstructionsChangeOneByte := by
  intro i s t target sp addr hwf htarget hat h
  rcases exec_fault_or_effect h with ⟨o, -, ho, rfl⟩ | ⟨-, hdata⟩
  · have hmod : i ≠ .mod := by
      rintro rfl
      cases htarget
    refine ⟨fun sq addr' _ => (s.record_sameData o).memRead_eq sq addr', fun hne => absurd ?arg hne⟩
    case arg => rw [State.record_outcome, ho hmod]
  · have hread (sq : Space) (addr' : Byte) : memRead sq addr' t =
        if sq = sp ∧ addr' = addr then Claim.storedByte s i else memRead sq addr' s := by
      rw [hdata.memRead_eq, effectOf_of_storeTarget htarget hat, memRead_memWrite (State.space_wf hwf sp)]
    exact ⟨fun sq addr' hne => (hread sq addr').trans (if_neg hne),
      fun _ => (hread sp addr).trans (if_pos ⟨rfl, rfl⟩)⟩

/-- Settles O30: a fault leaves every byte, and stage E fills VRAM. -/
theorem flvKeepsProgAndRam : Obligations.FlvKeepsProgAndRam := by
  intro value s t h addr
  rcases exec_fault_or_effect h with ⟨o, -, ho, rfl⟩ | ⟨-, hdata⟩
  · have hdata := s.record_sameData o
    refine ⟨hdata.memRead_eq .prog addr, hdata.memRead_eq .ram addr, fun hne => absurd ?arg hne⟩
    case arg => rw [State.record_outcome, ho nofun]
  · exact ⟨hdata.memRead_eq .prog addr, hdata.memRead_eq .ram addr,
      fun _ => (hdata.memRead_eq .vram addr).trans memRead_memFill⟩

end Sys2Proof.Machine
end

section
/-! The obligations about the step and its outcomes (40_execution.md, 60_exceptions.md). -/

namespace Sys2Proof.Machine

/-! ## What a step can do -/

theorem runSequential_answers (arity : Nat) (report : StepOutcome) (effect : State → State) (s : State) :
    ∃ t, runSequential arity report effect s = .next t := by
  unfold runSequential
  split <;> exact ⟨_, rfl⟩

theorem runTransfer_answers (target : Byte) (s : State) : ∃ t, runTransfer target s = .next t := by
  unfold runTransfer
  split <;> exact ⟨_, rfl⟩

/-- Every meaning answers a next state (log 1). -/
theorem exec_answers (i : Instr) (s : State) : ∃ t, exec i s = .next t := by
  rw [exec_eq]
  split
  · exact ⟨_, rfl⟩
  · split
    · exact runTransfer_answers _ s
    · exact runSequential_answers _ _ _ s

/-- Settles O31: a halted step answers the state, a raised outcome is recorded in a next state, and every meaning answers
one. -/
theorem everyStepAnswersANextState : Obligations.EveryStepAnswersANextState := by
  intro s
  rcases step_cases s with ⟨-, h⟩ | ⟨-, o, -, h⟩ | ⟨-, i, -, h⟩
  · exact ⟨_, h⟩
  · exact ⟨_, h⟩
  · exact h ▸ exec_answers i s

/-- The instruction that stands at IP: its opcode byte at IP and its operand byte, if any, at IP + 1, with IP not 255. -/
def State.At (s : State) (i : Instr) : Prop :=
  memRead .prog s.ip s = i.opcode ∧
    ∀ v, i.operand? = some v → s.ip.toNat ≤ 254 ∧ memRead .prog (s.ip + 1) s = v

/-- The operand of the instruction at IP lies inside the image. -/
theorem State.At.operand_inBounds {s : State} {i : Instr} (h : s.At i) : s.ip.toNat + i.arity ≤ 255 := by
  have hlt := s.ip.isLt
  cases hv : i.operand? with
  | none => rw [arity_of_operand_none hv]; omega
  | some v => have := (h.2 v hv).1; rw [arity_of_operand_some hv]; omega

/-- A fetch that gives an instruction has read it at IP (R151, R154). -/
theorem fetchDecode_instruction {s : State} {i : Instr} (h : fetchDecode s = .instruction i) : s.At i := by
  cases hrow : decodeOpcode (memRead .prog s.ip s) with
  | none => simp [fetchDecode, hrow] at h
  | some row =>
    have hid := decodeOpcode_hasId hrow
    cases row with
    | bare j =>
      obtain ⟨hop, hnone⟩ := hid
      cases (fetchDecode_bare hrow).symm.trans h
      exact ⟨hop.symm, fun v hv => absurd (hnone.symm.trans hv) nofun⟩
    | withOperand build =>
      have hip : s.ip.toNat ≠ 255 := by
        intro hip
        have hbounds : ¬ operandInBounds 1 s = true := mt operandInBounds_one.mp (by omega)
        simp [fetchDecode, hrow, hbounds] at h
      cases (fetchDecode_withOperand hrow hip).symm.trans h
      obtain ⟨hop, hsome⟩ := hid (memRead .prog (s.ip + 1) s)
      have hlt := s.ip.isLt
      exact ⟨hop.symm, fun v hv => ⟨by omega, Option.some.inj (hsome.symm.trans hv)⟩⟩

/-- A fetch raises ArgOutOfBounds only for an opcode with an operand (R153). -/
theorem fetchDecode_argOutOfBounds {s : State} (h : fetchDecode s = .raised .argOutOfBounds) :
    ∃ build, decodeOpcode (memRead .prog s.ip s) = some (.withOperand build) := by
  cases hrow : decodeOpcode (memRead .prog s.ip s) with
  | none => simp [fetchDecode, hrow] at h
  | some row =>
    cases row with
    | bare j => exact absurd ((fetchDecode_bare hrow).symm.trans h) nofun
    | withOperand build => exact ⟨build, rfl⟩

/-- Everything a running step can do (R160): report an opcode byte with no row, report an operand past the end of the image,
or execute the instruction at IP. -/
theorem step_running_cases {s t : State} (hrun : s.halt = false) (h : step s = .next t) :
    (26 ≤ (memRead .prog s.ip s).toNat ∧ t = s.record (.unknownOp (memRead .prog s.ip s))) ∨
      (s.ip.toNat = 255 ∧ (∃ build, decodeOpcode (memRead .prog s.ip s) = some (.withOperand build)) ∧
        t = s.record .argOutOfBounds) ∨
      (∃ i, s.At i ∧ exec i s = .next t) := by
  rcases step_cases s with ⟨hhalt, -⟩ | ⟨-, o, hraised, hstep⟩ | ⟨-, i, hf, hstep⟩
  · exact absurd (hrun.symm.trans hhalt) nofun
  · obtain rfl : s.record o = t := Host.Outcome.next.inj (hstep.symm.trans h)
    rcases fetchDecode_raised hraised with ⟨rfl, hnone⟩ | ⟨rfl, hbounds⟩
    · exact .inl ⟨unknown_of_decodeOpcode hnone, rfl⟩
    · have hip : s.ip.toNat = 255 := by
        by_contra hne
        exact absurd ((operandInBounds_one.mpr hne).symm.trans hbounds) nofun
      exact .inr (.inl ⟨hip, fetchDecode_argOutOfBounds hraised, rfl⟩)
  · exact .inr (.inr ⟨i, fetchDecode_instruction hf, hstep ▸ h⟩)

/-! ## The step and the bytes at IP -/

/-- The window of a fetch begins with an instruction's bytes only if the instruction stands at IP. -/
theorem at_of_fetchWindow {s : State} {i : Instr} {after : List Byte} (h : fetchWindow s = encode i ++ after) : s.At i := by
  rw [fetchWindow, encode, List.cons_append, List.cons.injEq] at h
  obtain ⟨hop, hrest⟩ := h
  refine ⟨hop, fun v hv => ?operand⟩
  case operand =>
    rw [hv] at hrest
    have hlt := s.ip.isLt
    by_cases hip : s.ip.toNat = 255
    · rw [if_neg (mt operandInBounds_one.mp (by omega))] at hrest
      cases hrest
    · rw [if_pos (operandInBounds_one.mpr hip), trunc8_toNat_add_one] at hrest
      exact ⟨by omega, (List.cons.inj hrest).1⟩

/-- Settles O32: what the window decodes to stands at IP, and a step runs the instruction at IP. -/
theorem stepRunsTheDecodedInstruction : Obligations.StepRunsTheDecodedInstruction := by
  intro s i after hrun hdecode
  obtain ⟨hop, hoperand⟩ := at_of_fetchWindow (eq_encode_append_of_decode hdecode)
  exact stepRunsTheBytesAtIp s i hrun hop hoperand

/-- Settles O34: a byte of 26 or more has no row, and the outcome raised is recorded. -/
theorem unknownOpcodeIsReported : Obligations.UnknownOpcodeIsReported := by
  intro s hrun hop
  have hfetch : fetchDecode s = .raised (.unknownOp (memRead .prog s.ip s)) := by
    simp only [fetchDecode, decodeOpcode_unknown hop]
  simp [step, hrun, hfetch, raise, State.record_unknownOp]

/-- Settles O35: the step asks for HALT first. -/
theorem haltedStepChangesNothing : Obligations.HaltedStepChangesNothing :=
  fun _ hhalt => if_pos hhalt

/-! ## The outcome of a step -/

/-- Settles O37, outcome by outcome of the table. -/
theorem outcomeEncodingTable : Obligations.OutcomeEncodingTable := by
  refine ⟨rfl, rfl, rfl, rfl, rfl, fun _ => rfl, rfl, rfl, fun o hne => ?payload⟩
  case payload =>
    cases o with
    | unknownOp op => exact absurd rfl (hne op)
    | _ => rfl

/-- The outcome of an instruction that executes, in the order of the stages (R160, R313). -/
def execOutcome (i : Instr) (s : State) : StepOutcome :=
  if 255 < s.ip.toNat + i.arity then .argOutOfBounds
  else if i = .mod ∧ s.a = 0x00 then .divisionByZero
  else if (transferOf s i).isSome then .continue_
  else if 255 < s.ip.toNat + 1 + i.arity then .endOfProgram
  else reportOf i

theorem arity_of_transferOf {i : Instr} {s : State} {target : Byte} (h : transferOf s i = some target) :
    i.arity = 1 := arity_of_operand_some (operand_of_transferOf h)

/-- The outcome a meaning records is the one the stages give. -/
theorem exec_outcome {i : Instr} {s t : State} (h : exec i s = .next t) : t.outcome = execOutcome i s := by
  have hlt := s.ip.isLt
  unfold execOutcome
  rcases exec_cases h with
    ⟨rfl, ha, rfl⟩ | ⟨hbounds, rfl⟩ | ⟨target, htransfer, hbounds, rfl⟩ | ⟨hmod, htransfer, hbounds, rfl⟩
  · have hin : ¬ 255 < s.ip.toNat + Instr.mod.arity := by
      rw [arity_of_operand_none rfl]
      omega
    rw [if_neg hin, if_pos ⟨rfl, ha⟩, State.record_outcome]
  · rw [if_pos (operandInBounds_eq_false.mp hbounds), State.record_outcome]
  · have hin : ¬ 255 < s.ip.toNat + i.arity := by
      have := operandInBounds_iff.mp hbounds
      rw [arity_of_transferOf htransfer]
      omega
    rw [if_neg hin, if_neg (not_mod_of_transferOf htransfer), htransfer, if_pos Option.isSome_some]
    rfl
  · have hin := operandInBounds_iff.mp hbounds
    rw [if_neg (by omega), if_neg hmod, htransfer, if_neg (by simp), State.advance_outcome, effectOf_ip]
    by_cases hfits : s.ip.toNat + 1 + i.arity ≤ 255
    · rw [if_pos hfits, if_neg (by omega)]
    · rw [if_neg hfits, if_pos (by omega)]

/-! ## The stage order, read off the opcode byte -/

theorem takesOperand_opcode (i : Instr) : (if Claim.takesOperand i.opcode then 1 else 0) = i.arity := by
  cases i <;> rfl

theorem takesJump_opcode (i : Instr) (s : State) : Claim.takesJump i.opcode s = (transferOf s i).isSome := by
  cases i with
  | jnz target =>
    rw [transferOf_jnz]
    by_cases hb : s.b = 0#8 <;> simp [Claim.takesJump, Instr.opcode, hb]
  | _ => rfl

theorem opcode_eq_mod_iff (i : Instr) : i.opcode = 0x0F ↔ i = .mod := by
  cases i <;> simp [Instr.opcode]

theorem opcode_eq_fsh_iff (i : Instr) : i.opcode = 0x19 ↔ i = .fsh := by
  cases i <;> simp [Instr.opcode]

/-- An opcode byte takes an operand exactly when its row has one (R104, R304). -/
theorem takesOperand_of_decodeOpcode {op : Byte} {build : Byte → Instr}
    (h : decodeOpcode op = some (.withOperand build)) : Claim.takesOperand op = true := by
  obtain ⟨hop, hsome⟩ := decodeOpcode_hasId h 0x00
  have harity := takesOperand_opcode (build 0x00)
  rw [hop, arity_of_operand_some hsome] at harity
  by_contra hne
  rw [if_neg hne] at harity
  cases harity

/-- The priority over the byte at IP is the stage order of the instruction there. -/
theorem outcomeByPriority_of_at {s : State} {i : Instr} (h : s.At i) : Claim.outcomeByPriority s = execOutcome i s := by
  have hle := i.opcode_toNat_le
  unfold Claim.outcomeByPriority execOutcome reportOf
  simp only [h.1, takesOperand_opcode, takesJump_opcode, opcode_eq_mod_iff, opcode_eq_fsh_iff,
    if_neg (show ¬ 26 ≤ i.opcode.toNat by omega)]

/-- The outcome a running step records is the one the priority of R313 gives. -/
theorem step_outcome {s t : State} (hrun : s.halt = false) (h : step s = .next t) :
    t.outcome = Claim.outcomeByPriority s := by
  rcases step_running_cases hrun h with ⟨hop, rfl⟩ | ⟨hip, ⟨build, hrow⟩, rfl⟩ | ⟨i, hat, hexec⟩
  · rw [State.record_outcome, Claim.outcomeByPriority, if_pos hop]
  · have hknown : ¬ 26 ≤ (memRead .prog s.ip s).toNat := fun hop =>
      absurd (hrow.symm.trans (decodeOpcode_unknown hop)) nofun
    have hbounds : 255 < s.ip.toNat + if Claim.takesOperand (memRead .prog s.ip s) then 1 else 0 := by
      rw [if_pos (takesOperand_of_decodeOpcode hrow)]
      omega
    rw [State.record_outcome, Claim.outcomeByPriority, if_neg hknown, if_pos hbounds]
  · rw [exec_outcome hexec, outcomeByPriority_of_at hat]

/-- Settles O36: a step answers a next state, whose outcome is the one of the priority in each of the cases of a step. -/
theorem outcomeFollowsThePriority : Obligations.OutcomeFollowsThePriority := by
  intro s hrun
  obtain ⟨t, h⟩ := everyStepAnswersANextState s
  exact ⟨t, h, step_outcome hrun h⟩

/-! ## The encoder -/

/-- A state whose outcome has been recorded, over a state with a given HALT (R309). -/
def State.Recorded (halt : Bool) (t : State) : Prop := ∃ u : State, u.halt = halt ∧ t = u.record t.outcome

theorem State.recorded_record (u : State) (o : StepOutcome) : State.Recorded u.halt (u.record o) :=
  ⟨u, rfl, by rw [State.record_outcome]⟩

theorem State.recorded_advance (u : State) (arity : Nat) (report : StepOutcome) :
    State.Recorded u.halt (u.advance arity report) := by
  by_cases h : u.ip.toNat + 1 + arity ≤ 255
  · rw [State.advance_fits h]
    exact State.recorded_record (u.setIp (trunc8 (u.ip.toNat + 1 + arity))) report
  · rw [State.advance_ends (by omega)]
    exact State.recorded_record u _

/-- Every meaning ends in the encoder. -/
theorem exec_recorded {i : Instr} {s t : State} (h : exec i s = .next t) : State.Recorded s.halt t := by
  rcases exec_cases h with ⟨-, -, rfl⟩ | ⟨-, rfl⟩ | ⟨target, -, -, rfl⟩ | ⟨-, -, -, rfl⟩
  · exact s.recorded_record _
  · exact s.recorded_record _
  · exact State.recorded_record (s.setIp target) _
  · obtain ⟨-, -, -, hhalt, -⟩ := effectOf_keeps i s
    exact hhalt ▸ State.recorded_advance (effectOf i s) _ _

/-- Every running step ends in the encoder. -/
theorem step_recorded {s t : State} (hrun : s.halt = false) (h : step s = .next t) : State.Recorded false t := by
  rcases step_running_cases hrun h with ⟨-, rfl⟩ | ⟨-, -, rfl⟩ | ⟨i, -, hexec⟩
  · exact hrun ▸ s.recorded_record _
  · exact hrun ▸ s.recorded_record _
  · exact hrun ▸ exec_recorded hexec

/-- The three status fields of a state recorded over a running one are those of its outcome (R309 to R311). -/
theorem State.Recorded.status {t : State} (h : State.Recorded false t) :
    t.halt = t.outcome.halting ∧ t.outc = t.outcome.code ∧ t.outp = t.outcome.payload := by
  obtain ⟨u, hhalt, ht⟩ := h
  refine ⟨?_, congrArg State.outc ht, congrArg State.outp ht⟩
  calc t.halt
    _ = (u.record t.outcome).halt := congrArg State.halt ht
    _ = t.outcome.halting := by rw [State.record_halt, hhalt, Bool.false_or]

/-- Only UnknownOp has a payload other than 0x00, and by the priority it is the byte at IP (R310, R313). -/
theorem outcomeByPriority_payload {s : State} (h : (Claim.outcomeByPriority s).payload ≠ 0x00) :
    Claim.outcomeByPriority s = .unknownOp (memRead .prog s.ip s) := by
  by_cases hop : 26 ≤ (memRead .prog s.ip s).toNat
  · rw [Claim.outcomeByPriority, if_pos hop]
  · refine absurd ?zero h
    rw [Claim.outcomeByPriority, if_neg hop]
    split_ifs <;> rfl

/-- Settles O38: a running step ends in the encoder, with the outcome of the priority. -/
theorem encoderRecordsEveryStep : Obligations.EncoderRecordsEveryStep := by
  intro s hrun
  obtain ⟨t, h⟩ := everyStepAnswersANextState s
  obtain ⟨hhalt, hcode, hpayload⟩ := (step_recorded hrun h).status
  rw [step_outcome hrun h] at hhalt hcode hpayload
  exact ⟨t, h, hhalt, hcode, hpayload, fun hne => outcomeByPriority_payload (hpayload ▸ hne)⟩

/-- A recorded fault changes the status fields and nothing else. -/
theorem State.record_of_isFault {o : StepOutcome} (h : o.isFault = true) (s : State) :
    s.record o = { s with outc := o.code, outp := o.payload, halt := true } := by
  have hhalting : o.halting = true := by cases o <;> cases h <;> rfl
  rw [State.record, hhalting, Bool.or_true]

/-- A fault of a running step is all that the step records. -/
theorem step_record_of_isFault {s t : State} (hrun : s.halt = false) (h : step s = .next t)
    (hfault : t.outcome.isFault = true) : ∃ o : StepOutcome, o.isFault = true ∧ t = s.record o := by
  rcases step_running_cases hrun h with ⟨-, rfl⟩ | ⟨-, -, rfl⟩ | ⟨i, -, hexec⟩
  · exact ⟨_, rfl, rfl⟩
  · exact ⟨_, rfl, rfl⟩
  · rcases exec_fault_or_effect hexec with ⟨o, ho, -, rfl⟩ | ⟨hnone, -⟩
    · exact ⟨o, ho, rfl⟩
    · exact absurd (hnone.symm.trans hfault) nofun

/-- Settles O39: a step that ends with a fault has recorded it and done nothing else. -/
theorem faultOutcomesArePrecise : Obligations.FaultOutcomesArePrecise := by
  intro s t hrun h hfault
  obtain ⟨o, ho, rfl⟩ := step_record_of_isFault hrun h hfault
  exact State.record_of_isFault ho s

/-! ## IP -/

/-- Where IP stands after a meaning: unchanged if it halts, at the target of a transfer, or advanced (R35). -/
theorem exec_ip {i : Instr} {s t : State} (hrun : s.halt = false) (h : exec i s = .next t) :
    (t.halt = true ∧ t.ip = s.ip) ∨
      (t.halt = false ∧ transferOf s i = some t.ip) ∨
      (t.halt = false ∧ transferOf s i = none ∧ t.ip.toNat = s.ip.toNat + 1 + i.arity) := by
  rcases exec_cases h with ⟨-, -, rfl⟩ | ⟨-, rfl⟩ | ⟨target, htransfer, -, rfl⟩ | ⟨-, htransfer, -, rfl⟩
  · exact .inl ⟨Bool.or_true _, rfl⟩
  · exact .inl ⟨Bool.or_true _, rfl⟩
  · exact .inr (.inl ⟨by rw [State.transfer_halt, hrun]; rfl, htransfer⟩)
  · obtain ⟨hip, -, -, hhalt, -⟩ := effectOf_keeps i s
    by_cases hfits : s.ip.toNat + 1 + i.arity ≤ 255
    · rw [State.advance_fits (by rwa [hip]), hip, State.record_reportOf]
      refine .inr (.inr ⟨hhalt.trans hrun, htransfer, ?sum⟩)
      case sum => exact (BitVec.toNat_ofNat _ _).trans (Nat.mod_eq_of_lt (by omega))
    · rw [State.advance_ends (by rw [hip]; omega)]
      exact .inl ⟨Bool.or_true _, hip⟩

/-- Settles O40: a step that executes nothing halts with IP unchanged, and a meaning leaves IP in one of three places. -/
theorem ipChangesOnlyByAdvanceOrTransfer : Obligations.IpChangesOnlyByAdvanceOrTransfer := by
  intro s hrun
  obtain ⟨t, h⟩ := everyStepAnswersANextState s
  refine ⟨t, h, ?_⟩
  rcases step_running_cases hrun h with ⟨-, rfl⟩ | ⟨-, -, rfl⟩ | ⟨i, ⟨hop, hoperand⟩, hexec⟩
  · exact ⟨fun _ => rfl, by simp [StepOutcome.halting], by simp [StepOutcome.halting]⟩
  · exact ⟨fun _ => rfl, by simp [StepOutcome.halting], by simp [StepOutcome.halting]⟩
  · simp only [hop, takesJump_opcode, takesOperand_opcode]
    rcases exec_ip hrun hexec with ⟨hhalt, hip⟩ | ⟨hhalt, htransfer⟩ | ⟨hhalt, htransfer, hip⟩
    · simp [hhalt, hip]
    · obtain ⟨hinside, hbyte⟩ := hoperand _ (operand_of_transferOf htransfer)
      exact ⟨by simp [hhalt], fun _ _ => ⟨hinside, hbyte.symm⟩, by simp [htransfer]⟩
    · simp [hhalt, htransfer, hip]

end Sys2Proof.Machine
end

section
/-! The obligations about one memory (20_memory.md). -/

namespace Sys2Proof.Machine

namespace Memory

theorem read_head (k : Nat) (v : Byte) (rest : Memory) : Memory.read ((k, v) :: rest) k = v := if_pos rfl

theorem read_tail {k i : Nat} (h : k ≠ i) (v : Byte) (rest : Memory) : Memory.read ((k, v) :: rest) i = rest.read i :=
  if_neg h

/-- A memory whose pairs all lie above an index does not read a listed byte there. -/
theorem not_below_of_read {m : Memory} {lo k : Nat} {v : Byte} (hm : Memory.wfFrom lo m = true) (hv : v ≠ unlistedByte)
    (h : m.read k = v) : lo ≤ k := by
  by_contra hlt
  exact hv (h.symm.trans (read_below hm (by omega)))

/-- Canonical memories that read the same from an index on, from which both are canonical, are the same list of pairs. -/
theorem eq_of_read_eq {m m' : Memory} {lo : Nat} (hm : Memory.wfFrom lo m = true) (hm' : Memory.wfFrom lo m' = true)
    (hread : ∀ i, lo ≤ i → i < spaceSize → m.read i = m'.read i) : m = m' := by
  induction m generalizing m' lo with
  | nil =>
    cases m' with
    | nil => rfl
    | cons p' rest' =>
      obtain ⟨k', v'⟩ := p'
      obtain ⟨hlo, hk', hv', -⟩ := wfFrom_cons.1 hm'
      exact absurd ((read_head k' v' rest').symm.trans (hread k' hlo hk').symm) hv'
  | cons p rest ih =>
    obtain ⟨k, v⟩ := p
    obtain ⟨hlo, hk, hv, hrest⟩ := wfFrom_cons.1 hm
    have hat : m'.read k = v := (hread k hlo hk).symm.trans (read_head k v rest)
    cases m' with
    | nil => exact absurd hat.symm hv
    | cons p' rest' =>
      obtain ⟨k', v'⟩ := p'
      obtain ⟨hlo', hk', hv', hrest'⟩ := wfFrom_cons.1 hm'
      have hat' : Memory.read ((k, v) :: rest) k' = v' := (hread k' hlo' hk').trans (read_head k' v' rest')
      obtain rfl : k = k' := Nat.le_antisymm
        (not_below_of_read (wfFrom_cons.2 ⟨le_refl k, hk, hv, hrest⟩) hv' hat')
        (not_below_of_read (wfFrom_cons.2 ⟨le_refl k', hk', hv', hrest'⟩) hv hat)
      obtain rfl : v' = v := (read_head k v' rest').symm.trans hat
      refine congrArg ((k, v') :: ·) (ih hrest hrest' fun i hi hlt => ?tail)
      case tail =>
        have hne : k ≠ i := by omega
        rw [← read_tail hne v' rest, ← read_tail hne v' rest']
        exact hread i (by omega) hlt

/-- The bytes read from an index on, as a list over the indices. -/
theorem readRange_eq_map (m : Memory) : ∀ n i : Nat, m.readRange n i = (List.range' i n).map m.read
  | 0, _ => rfl
  | n + 1, i => congrArg (m.read i :: ·) (readRange_eq_map m n (i + 1))

/-- Reading back a stored byte sequence: its bytes at the indices it reaches, every other byte as before (R67, R321). -/
theorem read_writeRange {bytes : List Byte} {i j : Nat} {m : Memory} (hm : m.wf = true)
    (hfits : i + bytes.length ≤ spaceSize) :
    (m.writeRange i bytes).read j = if i ≤ j ∧ j < i + bytes.length then bytes.getD (j - i) 0x00 else m.read j := by
  induction bytes generalizing i m with
  | nil => rw [if_neg (by simp only [List.length_nil]; omega)]; rfl
  | cons v rest ih =>
    rw [List.length_cons] at hfits ⊢
    rw [Memory.writeRange, ih (write_wf hm (by omega)) (by omega), read_write hm]
    rcases Nat.lt_trichotomy i j with hlt | rfl | hgt
    · obtain ⟨d, rfl⟩ := Nat.exists_eq_add_of_lt hlt
      have hhead : i + d + 1 - i = d + 1 := by omega
      have htail : i + d + 1 - (i + 1) = d := by omega
      rw [if_neg (by omega : ¬ i = i + d + 1), hhead, htail, List.getD_cons_succ]
      exact if_congr (by omega) rfl rfl
    · rw [if_neg (by omega), if_pos rfl, if_pos (by omega), Nat.sub_self, List.getD_cons_zero]
    · rw [if_neg (by omega), if_neg (by omega), if_neg (by omega)]

/-- A byte sequence read from a memory has at each place the byte that many indices on. -/
theorem readRange_getD {m : Memory} {n i k : Nat} (h : k < n) : (m.readRange n i).getD k 0x00 = m.read (i + k) := by
  simp [readRange_eq_map, h]

/-- A MemCopy with both ranges in the space answers (R69). -/
theorem copy_ok {m : Memory} {source dest : Byte} {num : Nat} (hsource : source.toNat + num ≤ 256)
    (hdest : dest.toNat + num ≤ 256) :
    m.copy source dest num = .ok (m.writeRange dest.toNat (m.readRange num source.toNat)) := by
  rw [Memory.copy, if_neg (by omega), if_neg (by omega)]

/-- The bytes after a copy: those of the source range as they were before it, and every other byte as it was. -/
theorem read_writeRange_readRange {m : Memory} {source dest num i : Nat} (hm : m.wf = true) (hdest : dest + num ≤ 256) :
    (m.writeRange dest (m.readRange num source)).read i =
      if dest ≤ i ∧ i < dest + num then m.read (source + (i - dest)) else m.read i := by
  rw [read_writeRange hm (by rwa [readRange_length]), readRange_length]
  refine ite_congr rfl (fun hin => readRange_getD (by omega)) (fun _ => rfl)

end Memory

/-- Settles O49: the pairs of the two memories agree one after another. -/
theorem canonicalMemoriesAreEqualData : Obligations.CanonicalMemoriesAreEqualData :=
  fun _ _ hm hm' hread => Memory.eq_of_read_eq hm hm' fun i _ hlt => hread i hlt

/-- Settles O50: the copy stores the bytes read before it, and the checks ask for the source range first. -/
theorem memCopyCopiesThroughATemporary : Obligations.MemCopyCopiesThroughATemporary := by
  intro m source dest num hm
  have hs := source.isLt
  have hd := dest.isLt
  refine ⟨fun hsource hdest =>
      ⟨_, Memory.copy_ok hsource hdest, fun i _ => Memory.read_writeRange_readRange hm hdest⟩,
    fun hsource => ?readFails, fun hsource hdest => ?writeFails⟩
  case readFails => rw [Memory.copy, if_pos (by omega)]
  case writeFails => rw [Memory.copy, if_neg (by omega), if_pos (by omega)]

end Sys2Proof.Machine
end

section
/-! The obligations about reset and about what a step keeps (10_state.md section 6, 70_reset_and_hazards.md). -/

namespace Sys2Proof.Machine

/-- Settles O41: the fields of the reset state as it is written, and an empty memory in every space. -/
theorem resetValues : Obligations.ResetValues := by
  refine ⟨rfl, rfl, rfl, rfl, rfl, rfl, rfl, fun sp addr => ?memory⟩
  case memory => cases sp <;> rfl

/-- The state after reset is legal for every canonical contents (R11, R350). -/
theorem State.afterReset_inv {fill : ResetFill} {prog : Memory} (hfill : fill.wf = true) (hprog : prog.wf = true) :
    (State.afterReset fill prog).Inv := by
  obtain ⟨hram, hvram⟩ : fill.ram.wf = true ∧ fill.vram.wf = true := by simpa [ResetFill.wf] using hfill
  exact ⟨State.memoriesWf_iff.2 ⟨hprog, hram, hvram⟩, rfl⟩

/-- Settles O42: the reset state is the state after reset for the decided contents. -/
theorem resetStateIsLegal : Obligations.ResetStateIsLegal :=
  ⟨State.afterReset_inv rfl rfl, fun _ _ hfill hprog => State.afterReset_inv hfill hprog⟩

theorem State.SameData.memoriesWf {s t : State} (h : s.SameData t) (hs : s.memoriesWf = true) : t.memoriesWf = true := by
  obtain ⟨-, -, -, hspace⟩ := h
  have hwf (sp : Space) : (t.space sp).wf = true := hspace sp ▸ State.space_wf hs sp
  exact State.memoriesWf_iff.2 ⟨hwf .prog, hwf .ram, hwf .vram⟩

theorem exec_memoriesWf {i : Instr} {s t : State} (h : exec i s = .next t) (hs : s.memoriesWf = true) :
    t.memoriesWf = true := by
  rcases exec_sameData h with hdata | hdata
  · exact hdata.memoriesWf hs
  · exact hdata.memoriesWf (effectOf_memoriesWf hs i)

theorem execOutcome_reportable (i : Instr) (s : State) : (execOutcome i s).reportable = true := by
  unfold execOutcome reportOf
  split_ifs <;> rfl

/-- No running step reports a MemCopy outcome, and UnknownOp comes with an illegal opcode byte (R301, R305). -/
theorem step_reportable {s t : State} (hrun : s.halt = false) (h : step s = .next t) : t.outcome.reportable = true := by
  rcases step_running_cases hrun h with ⟨hop, rfl⟩ | ⟨-, -, rfl⟩ | ⟨i, -, hexec⟩
  · rw [State.record_outcome]
    exact decide_eq_true hop
  · rfl
  · exact exec_outcome hexec ▸ execOutcome_reportable i s

theorem step_memoriesWf {s t : State} (hrun : s.halt = false) (h : step s = .next t) (hs : s.memoriesWf = true) :
    t.memoriesWf = true := by
  rcases step_running_cases hrun h with ⟨-, rfl⟩ | ⟨-, -, rfl⟩ | ⟨i, -, hexec⟩
  · exact (s.record_sameData _).memoriesWf hs
  · exact (s.record_sameData _).memoriesWf hs
  · exact exec_memoriesWf hexec hs

/-- Settles O43: a halted step keeps the state, and a running step keeps the memories canonical and records a reportable
outcome over a state that has not halted. -/
theorem stepKeepsTheStateLegal : Obligations.StepKeepsTheStateLegal := by
  intro s t hinv h
  cases hrun : s.halt with
  | true =>
    cases (haltedStepChangesNothing s hrun).symm.trans h
    exact hinv
  | false =>
    obtain ⟨u, hhalt, ht⟩ := step_recorded hrun h
    exact ⟨step_memoriesWf hrun h hinv.1, ht ▸ State.record_statusWf hhalt (step_reportable hrun h)⟩

end Sys2Proof.Machine
end

section
/-! The obligations about runs (40_execution.md section 2). -/

namespace Sys2Proof.Machine

/-- The state a run has come to, returned or not. -/
def RunResult.state : RunResult → State
  | .returned s => s
  | .unfinished s => s

theorem runToBoundary_halted {s : State} (h : s.halt = true) (fuel : Nat) :
    runToBoundary fuel s = .next (.returned s) := by
  rw [runToBoundary.eq_def]
  exact if_pos h

/-- The induction over a run: it returns at once while halted, stands still without fuel, returns at a boundary, or goes on
after a step that ends with Continue (R162, R163). -/
theorem runToBoundary_induction {motive : State → RunResult → Prop}
    (halted : ∀ s, s.halt = true → motive s (.returned s))
    (spent : ∀ s, s.halt = false → motive s (.unfinished s))
    (boundary : ∀ s t, s.halt = false → step s = .next t → t.outcome ≠ .continue_ → motive s (.returned t))
    (goesOn : ∀ s t r, s.halt = false → step s = .next t → t.outcome = .continue_ → motive t r → motive s r)
    {fuel : Nat} {s : State} {r : RunResult} (h : runToBoundary fuel s = .next r) : motive s r := by
  induction fuel generalizing s with
  | zero =>
    cases hrun : s.halt with
    | true => cases (runToBoundary_halted hrun 0).symm.trans h; exact halted s hrun
    | false => cases (runToBoundary_zero hrun).symm.trans h; exact spent s hrun
  | succ fuel ih =>
    cases hrun : s.halt with
    | true => cases (runToBoundary_halted hrun _).symm.trans h; exact halted s hrun
    | false =>
      obtain ⟨t, ht⟩ := everyStepAnswersANextState s
      rw [runToBoundary_succ hrun ht] at h
      split at h
      · exact goesOn s t r hrun ht ‹_› (ih h)
      · cases h
        exact boundary s t hrun ht ‹_›

/-- What every step keeps, a run keeps. -/
theorem runToBoundary_keeps {P : State → Prop} (hstep : ∀ s t, P s → step s = .next t → P t) {fuel : Nat}
    {s : State} {r : RunResult} (h : runToBoundary fuel s = .next r) : P s → P r.state :=
  runToBoundary_induction (motive := fun s r => P s → P r.state) (fun _ _ => id) (fun _ _ => id)
    (fun s t _ ht _ hs => hstep s t hs ht) (fun s t _ _ ht _ ih hs => ih (hstep s t hs ht)) h

/-- A run that has not returned is not halted (R162, R312). -/
theorem halt_of_runToBoundary_unfinished {fuel : Nat} {s t : State} (h : runToBoundary fuel s = .next (.unfinished t)) :
    t.halt = false :=
  runToBoundary_induction (motive := fun _ r => ∀ t, r = .unfinished t → t.halt = false) nofun
    (fun _ hrun _ ht => RunResult.unfinished.inj ht ▸ hrun) nofun (fun _ _ _ _ _ _ ih => ih) h t rfl

/-- A run returns a halted state or one whose outcome is not Continue. -/
theorem boundary_of_runToBoundary_returned {fuel : Nat} {s t : State} (h : runToBoundary fuel s = .next (.returned t)) :
    t.halt = true ∨ t.outcome ≠ .continue_ :=
  runToBoundary_induction (motive := fun _ r => ∀ t, r = .returned t → t.halt = true ∨ t.outcome ≠ .continue_)
    (fun _ hhalt _ ht => .inl (RunResult.returned.inj ht ▸ hhalt)) nofun
    (fun _ _ _ _ hne _ ht => .inr (RunResult.returned.inj ht ▸ hne)) (fun _ _ _ _ _ _ ih => ih) h t rfl

/-- Only code 0 stands for Continue (R310). -/
theorem StepOutcome.code_of_ofCode_continue {code : BitVec 3} {payload : Byte}
    (h : StepOutcome.ofCode code payload = .continue_) : code = 0 := by
  unfold StepOutcome.ofCode at h
  split at h
  next hzero => exact BitVec.eq_of_toNat_eq hzero
  all_goals cases h

/-- The outcome latched in a legal halted state is not Continue (R311). -/
theorem State.Inv.outcome_ne_continue {s : State} (h : s.Inv) (hhalt : s.halt = true) : s.outcome ≠ .continue_ := by
  intro hcontinue
  have hcode : s.outc = 0 := StepOutcome.code_of_ofCode_continue hcontinue
  obtain ⟨-, hstatus⟩ := h
  simp [State.statusWf, hhalt, hcode, haltingCode] at hstatus

/-- Settles O51: a halted run returns at once, and a run returns at a boundary or in a legal halted state. -/
theorem runReturnsAtABoundary : Obligations.RunReturnsAtABoundary := by
  refine fun fuel s => ⟨fun hhalt => runToBoundary_halted hhalt fuel, fun t hinv h => ?boundary⟩
  case boundary =>
    have ht : t.Inv := runToBoundary_keeps stepKeepsTheStateLegal h hinv
    rcases boundary_of_runToBoundary_returned h with hhalt | hne
    · exact ht.outcome_ne_continue hhalt
    · exact hne

/-- Settles O52, by induction on the fuel: both runs take the same step or have returned. -/
theorem runDoesNotDependOnFuel : Obligations.RunDoesNotDependOnFuel := by
  intro fuel more
  induction fuel with
  | zero =>
    intro s t h
    cases hrun : s.halt with
    | true =>
      cases (runToBoundary_halted hrun 0).symm.trans h
      exact runToBoundary_halted hrun _
    | false => exact absurd ((runToBoundary_zero hrun).symm.trans h) nofun
  | succ fuel ih =>
    intro s t h
    cases hrun : s.halt with
    | true =>
      cases (runToBoundary_halted hrun _).symm.trans h
      exact runToBoundary_halted hrun _
    | false =>
      obtain ⟨u, hu⟩ := everyStepAnswersANextState s
      rw [runToBoundary_succ hrun hu] at h
      rw [Nat.succ_add_eq_add_succ, Nat.add_succ, runToBoundary_succ hrun hu]
      split
      · rw [if_pos ‹_›] at h
        exact ih u t h
      · rwa [if_neg ‹_›] at h

/-- A step leaves INP and PROG as they were (R36, R62). -/
theorem step_keeps_inp_prog {s t : State} (h : step s = .next t) : t.inp = s.inp ∧ t.prog = s.prog := by
  cases hrun : s.halt with
  | true =>
    cases (haltedStepChangesNothing s hrun).symm.trans h
    exact ⟨rfl, rfl⟩
  | false =>
    rcases step_running_cases hrun h with ⟨-, rfl⟩ | ⟨-, -, rfl⟩ | ⟨i, -, hexec⟩
    · exact ⟨rfl, rfl⟩
    · exact ⟨rfl, rfl⟩
    · exact (registerWritersAreTheNamedOnes i s t hexec).2.2

theorem runToBoundary_keeps_inp_prog {fuel : Nat} {s : State} {r : RunResult} (h : runToBoundary fuel s = .next r) :
    r.state.inp = s.inp ∧ r.state.prog = s.prog := by
  refine runToBoundary_keeps (P := fun t => t.inp = s.inp ∧ t.prog = s.prog) (fun t u ht hu => ?step) h ⟨rfl, rfl⟩
  case step =>
    obtain ⟨hinp, hprog⟩ := step_keeps_inp_prog hu
    exact ⟨hinp.trans ht.1, hprog.trans ht.2⟩

end Sys2Proof.Machine
end

section
/-! The obligations about the host's transactions (60_exceptions.md section 4, 70_reset_and_hazards.md). -/

namespace Sys2Proof.Machine

/-! ## Moves of the block -/

/-- No transaction is given a move during a RUN (R328). -/
theorem transact_busy {b : Block} (h : b.busy = true) (x : Transaction) :
    transact x b = .refused .transactionInProgress := if_pos h

theorem Block.eq_idle {b : Block} (h : b.busy = false) : b = .idle b.state := by
  cases b
  cases h
  rfl

/-- A RUN without a response yet leaves the block busy in the state its run has come to (R163, R329). -/
theorem transact_run_running {fuel : Nat} {s : State} {b : Block}
    (h : transact (.run fuel) (.idle s) = .next (b, .running)) :
    ∃ t, runToBoundary fuel s = .next (.unfinished t) ∧ b = { state := t, busy := true } := by
  rcases runFrom_cases h with ⟨t, -, -, hr⟩ | ⟨t, ht, hb, -⟩
  · cases hr
  · exact ⟨t, ht, hb⟩

/-- Settles O53: every step of a run keeps INP and PROG, and a busy block refuses. -/
theorem runKeepsInpAndProg : Obligations.RunKeepsInpAndProg := by
  refine ⟨fun fuel s t h => ?run, fun fuel s b h => ?busy, fun x b hbusy => transact_busy hbusy x⟩
  case run =>
    rcases h with h | h
    · exact runToBoundary_keeps_inp_prog h
    · exact runToBoundary_keeps_inp_prog h
  case busy =>
    obtain ⟨t, ht, rfl⟩ := transact_run_running h
    exact ⟨rfl, runToBoundary_keeps_inp_prog ht⟩

/-- Settles O54: an idle block performs INP_WRITE in one move. -/
theorem inpWriteChangesOnlyInp : Obligations.InpWriteChangesOnlyInp := fun _ _ => rfl

/-- Settles O56: the reset state with PROG put back is what RESET leaves. -/
theorem resetKeepsTheProgram : Obligations.ResetKeepsTheProgram := fun _ => rfl

/-! ## PROG_WRITE and LOAD -/

theorem progWrite_eq (addr v : Byte) (s : State) : progWrite addr v s = .next (memWrite .prog addr v s) := rfl

theorem trunc8_toNat {n : Nat} (h : n < 256) : (trunc8 n).toNat = n :=
  (BitVec.toNat_ofNat _ _).trans (Nat.mod_eq_of_lt h)

/-- PROG_WRITEs at rising addresses store their bytes in PROG (R321). -/
theorem progWrites_eq {bytes : List Byte} {i : Nat} (s : State) (h : i + bytes.length ≤ 256) :
    progWrites i bytes s = .next (s.setSpace .prog (s.prog.writeRange i bytes)) := by
  induction bytes generalizing i s with
  | nil => rfl
  | cons v rest ih =>
    rw [List.length_cons] at h
    have hstore : memWrite .prog (trunc8 i) v s = s.setSpace .prog (s.prog.write i v) := by
      rw [memWrite, trunc8_toNat (by omega), State.space_prog]
    rw [progWrites, progWrite_eq, hstore]
    exact ih _ (by omega)

theorem imageWf_iff {image : List Byte} : imageWf image = true ↔ image.length = 256 := beq_iff_eq

theorem loadImage_eq {image : List Byte} (h : image.length = 256) (s : State) :
    loadImage image s = .next (s.setSpace .prog (s.prog.writeRange 0 image)) := by
  rw [loadImage, if_pos (imageWf_iff.mpr h), progWrites_eq s (by omega)]

/-- Settles O55: the 256 PROG_WRITEs store the image from index 0 on, and an image of another length is refused. -/
theorem loadStoresTheImage : Obligations.LoadStoresTheImage := by
  intro image s hprog
  refine ⟨fun hlength => ⟨s.setSpace .prog (s.prog.writeRange 0 image), ?answer, fun i => ?byte, rfl⟩,
    fun hlength => ?refused⟩
  case answer =>
    rw [transact, if_neg (by simp)]
    simp only [Block.idle_state, loadImage_eq hlength, completed]
  case byte =>
    have hi := i.isLt
    rw [State.setSpace_prog_prog, Memory.read_writeRange hprog (by rw [hlength]; decide), if_pos (by omega), Nat.sub_zero,
      List.getD_eq_getElem _ _ (by omega), List.getElem?_eq_getElem (by omega)]
  case refused =>
    rw [transact, if_neg (by simp)]
    simp only [loadImage, if_neg (mt imageWf_iff.mp hlength), completed]

/-! ## Reads -/

/-- The sum that packs HALT and OUTC in a byte, as a row of bits, for all 16 values. -/
theorem trunc8_halt_add_outc : ∀ (halt : Bool) (outc : BitVec 3),
    trunc8 ((if halt then 8 else 0) + outc.toNat) = 0#4 ++ BitVec.ofBool halt ++ outc := by decide

/-- HALT in bit 3 and OUTC in bits 2 to 0 of the status byte (R326, D18). -/
theorem statusByte_four (s : State) : statusByte s 4 = 0#4 ++ BitVec.ofBool s.halt ++ s.outc :=
  trunc8_halt_add_outc s.halt s.outc

theorem statusByte_reserved {sel : Byte} (h : 6 ≤ sel.toNat) (s : State) : statusByte s sel = 0x00 := by
  obtain ⟨n, hn⟩ := Nat.exists_eq_add_of_le' h
  simp only [statusByte, hn]

theorem transact_frameRead (addr : Byte) (s : State) :
    transact (.frameRead addr) (.idle s) = .next (.idle s, .data (memRead .vram addr s)) := rfl

/-- A sequence of FRAME_READs answers the bytes in its order and leaves the block alone. -/
theorem transactAll_frameReads (addrs : List Byte) (s : State) :
    transactAll (addrs.map .frameRead) (.idle s) =
      .next (.idle s, addrs.map fun addr => .data (memRead .vram addr s)) := by
  induction addrs with
  | nil => rfl
  | cons addr rest ih => exact transactAll_cons (transact_frameRead addr s) ih

/-- The addresses of a space in index order. -/
def addressesInOrder : List Byte := (List.range spaceSize).map trunc8

theorem frameReads_eq : frameReads = addressesInOrder.map .frameRead := by
  rw [frameReads, addressesInOrder, List.map_map]
  rfl

/-- The frame is the VRAM byte of every address in order (R306, R324). -/
theorem State.frame_eq (s : State) : s.frame = addressesInOrder.map fun addr => memRead .vram addr s := by
  rw [State.frame, Memory.bytes, Memory.readRange_eq_map, ← List.range_eq_range', addressesInOrder, List.map_map]
  refine List.map_congr_left fun i hi => ?_
  exact congrArg s.vram.read (trunc8_toNat (List.mem_range.mp hi)).symm

/-- Settles O57: selector by selector, and the reads of a frame one after another. -/
theorem readTransactionsChangeNothing : Obligations.ReadTransactionsChangeNothing := by
  intro s
  have hstate (sel : Byte) : transact (.stateRead sel) (.idle s) = .next (.idle s, .data (statusByte s sel)) := rfl
  refine ⟨hstate 0, hstate 1, hstate 2, hstate 3, ?status, hstate 5, fun sel hsel => ?reserved,
    fun addr => transact_frameRead addr s, ?frame⟩
  case status => rw [hstate, statusByte_four]
  case reserved => rw [hstate, statusByte_reserved hsel]
  case frame => rw [frameReads_eq, transactAll_frameReads, State.frame_eq, List.map_map]; rfl

/-! ## The invariant of the block -/

theorem Block.idle_inv {s : State} (h : s.Inv) : (Block.idle s).Inv := ⟨h, nofun⟩

theorem State.resetBlock_inv {s : State} (h : s.Inv) : (resetBlock s).Inv :=
  State.afterReset_inv rfl (State.space_wf h.1 .prog)

/-- Replacing PROG by a canonical memory keeps a state legal. -/
theorem State.setProg_inv {s : State} (h : s.Inv) {m : Memory} (hm : m.wf = true) : (s.setSpace .prog m).Inv :=
  ⟨State.setSpace_memoriesWf h.1 .prog hm, h.2⟩

theorem loadImage_inv {image : List Byte} {s t : State} (hs : s.Inv) (h : loadImage image s = .next t) : t.Inv := by
  by_cases hlength : image.length = 256
  · obtain rfl := Host.Outcome.next.inj ((loadImage_eq hlength s).symm.trans h)
    exact State.setProg_inv hs (Memory.writeRange_wf (State.space_wf hs.1 .prog) (by rw [hlength]; decide))
  · rw [loadImage, if_neg (mt imageWf_iff.mp hlength)] at h
    cases h

/-- A RUN, returned or in progress, keeps the block legal (R325). -/
theorem runFrom_inv {fuel : Nat} {s : State} {c : Block} {r : Response} (hs : s.Inv)
    (h : runFrom fuel s = .next (c, r)) : c.Inv := by
  rcases runFrom_cases h with ⟨t, ht, rfl, -⟩ | ⟨t, ht, rfl, -⟩
  · exact Block.idle_inv (runToBoundary_keeps stepKeepsTheStateLegal ht hs)
  · exact ⟨runToBoundary_keeps stepKeepsTheStateLegal ht hs, fun _ => halt_of_runToBoundary_unfinished ht⟩

/-- Every transaction given to an idle block keeps it legal, transaction by transaction (R320). -/
theorem transact_idle_inv {x : Transaction} {s : State} {c : Block} {r : Response} (hs : s.Inv)
    (h : transact x (.idle s) = .next (c, r)) : c.Inv := by
  cases x with
  | reset => cases h; exact Block.idle_inv (State.resetBlock_inv hs)
  | load image =>
    obtain ⟨t, ht, rfl, -⟩ := completed_cases h
    exact Block.idle_inv (loadImage_inv hs ht)
  | progWrite addr v =>
    cases h
    exact Block.idle_inv (State.setProg_inv hs (Memory.write_wf (State.space_wf hs.1 .prog) addr.isLt))
  | inpWrite v => cases h; exact Block.idle_inv hs
  | step =>
    obtain ⟨t, ht, rfl, -⟩ := completed_cases h
    exact Block.idle_inv (stepKeepsTheStateLegal s t hs ht)
  | run fuel => exact runFrom_inv hs h
  | frameRead addr => cases h; exact Block.idle_inv hs
  | stateRead sel => cases h; exact Block.idle_inv hs

theorem transact_inv {x : Transaction} {b c : Block} {r : Response} (hb : b.Inv) (h : transact x b = .next (c, r)) :
    c.Inv := by
  cases hbusy : b.busy with
  | true => exact absurd ((transact_busy hbusy x).symm.trans h) nofun
  | false => exact transact_idle_inv hb.1 (Block.eq_idle hbusy ▸ h)

theorem continueRun_inv {fuel : Nat} {b c : Block} {r : Response} (hb : b.Inv) (h : continueRun fuel b = .next (c, r)) :
    c.Inv := by
  unfold continueRun at h
  split at h
  · exact runFrom_inv hb.1 h
  · cases h
    exact hb

/-- A command at signal level is a reset, the going on of a RUN, a transaction, or no move (R329). -/
theorem signalCommand_inv {fuel : Nat} {g : Signals} {b c : Block} {r : SignalReply} (hb : b.Inv)
    (h : signalCommand fuel g b = .next (c, r)) : c.Inv := by
  unfold signalCommand at h
  split at h
  · cases h
    exact Block.idle_inv (State.resetBlock_inv hb.1)
  · split at h
    · obtain ⟨response, hmove, -⟩ := signalled_cases h
      exact continueRun_inv hb hmove
    · split at h
      · split at h
        · cases h
          exact hb
        · obtain ⟨response, hmove, -⟩ := signalled_cases h
          exact transact_inv hb hmove
      · cases h
        exact hb

/-- Settles O44: each transaction, a RUN that goes on and each command at signal level. -/
theorem transactionsKeepTheStateLegal : Obligations.TransactionsKeepTheStateLegal :=
  ⟨fun _ _ _ _ => transact_inv, fun _ _ _ _ => continueRun_inv, fun _ _ _ _ _ => signalCommand_inv⟩

end Sys2Proof.Machine
end

section
/-! The obligations about the multiplexer (20_memory.md section 2). -/

namespace Sys2Proof.Machine

/-! ## One request -/

/-- An access that a port makes to the space selected is performed there (R65). -/
theorem portRequest_next {p : Port} {code : BitVec 2} {access : Access} {sp : Space} (hcode : Space.ofCode code = some sp)
    (hmakes : p.makes sp access = true) (s : State) : portRequest p code access s = .next (access.perform sp s) := by
  simp only [portRequest, hcode, hmakes, if_true]

/-- Only an access that the port makes is answered, and it is performed in the space its code selects. -/
theorem portRequest_cases {p : Port} {code : BitVec 2} {access : Access} {s t : State} {v : Byte}
    (h : portRequest p code access s = .next (t, v)) :
    ∃ sp, p.makes sp access = true ∧ t = (access.perform sp s).1 := by
  cases hcode : Space.ofCode code with
  | none => simp [portRequest, hcode] at h
  | some sp =>
    cases hmakes : p.makes sp access with
    | false => simp [portRequest, hcode, hmakes] at h
    | true =>
      have hanswer := Host.Outcome.next.inj (h.symm.trans (portRequest_next hcode hmakes s))
      exact ⟨sp, hmakes, congrArg Prod.fst hanswer⟩

/-- An access changes no register and no status field. -/
theorem perform_frame (access : Access) (sp : Space) (s : State) :
    let t := (access.perform sp s).1
    t.a = s.a ∧ t.b = s.b ∧ t.ip = s.ip ∧ t.inp = s.inp ∧ t.halt = s.halt ∧ t.outc = s.outc ∧
      t.outp = s.outp := by
  cases access <;> simp [Access.perform]

/-- An access leaves the other two spaces alone (R60). -/
theorem perform_space_other {sp sq : Space} (h : sq ≠ sp) (access : Access) (s : State) :
    (access.perform sp s).1.space sq = s.space sq := by
  cases access with
  | read addr => rfl
  | write addr v => exact State.space_setSpace_other s sp sq _ h
  | fill v => exact State.space_setSpace_other s sp sq _ h

/-- The fetch port only reads. -/
theorem perform_of_fetch {sp : Space} {access : Access} (h : Port.fetch.makes sp access = true) (s : State) :
    (access.perform sp s).1 = s := by
  cases access with
  | read addr => rfl
  | write addr v => cases sp <;> cases h
  | fill v => cases sp <;> cases h

theorem data_makes_not_prog {access : Access} (sp : Space) (h : Port.data.makes sp access = true) : Space.prog ≠ sp := by
  rintro rfl
  cases h

/-- The host port changes nothing outside PROG. -/
theorem perform_of_host {sp sq : Space} {access : Access} (h : Port.host.makes sp access = true) (hsq : sq ≠ .prog)
    (s : State) : (access.perform sp s).1.space sq = s.space sq := by
  cases sp with
  | prog => exact perform_space_other hsq access s
  | ram => cases h
  | vram =>
    cases access with
    | read addr => rfl
    | write addr v => cases h
    | fill v => cases h

/-- Settles O47: the table of R65 entry by entry, and what the accesses of each port leave alone. -/
theorem portsReachOnlyTheirSpaces : Obligations.PortsReachOnlyTheirSpaces := by
  refine ⟨fun _ _ _ => rfl, fun _ _ => ⟨rfl, rfl, rfl, rfl⟩,
    fun _ _ _ => ⟨rfl, rfl, rfl, rfl, rfl, rfl, rfl, rfl, rfl⟩, fun p code access s t v h => ?answered⟩
  case answered =>
    obtain ⟨sp, hmakes, rfl⟩ := portRequest_cases h
    refine ⟨?fetch, ?data, ?host, perform_frame access sp s⟩
    case fetch =>
      rintro rfl
      exact perform_of_fetch hmakes s
    case data =>
      rintro rfl
      exact perform_space_other (data_makes_not_prog sp hmakes) access s
    case host =>
      rintro rfl
      exact ⟨perform_of_host (sq := .ram) hmakes nofun s, perform_of_host (sq := .vram) hmakes nofun s⟩

/-! ## The one request of an instruction -/

theorem stores_of_dataRequest_none {i : Instr} {s : State} (h : dataRequest s i = none) : Claim.stores i = false := by
  cases i <;> cases h <;> rfl

/-- The data port makes the request of an instruction, which does to the spaces what stage E does, and a read gives the byte
that stage E puts in B (R70). -/
theorem effectOf_of_dataRequest {i : Instr} {s : State} {code : BitVec 2} {access : Access}
    (h : dataRequest s i = some (code, access)) :
    ∃ sp, Space.ofCode code = some sp ∧ Port.data.makes sp access = true ∧
      (∀ sq, (effectOf i s).space sq = (access.perform sp s).1.space sq) ∧
      ∀ addr, access = .read addr → (effectOf i s).b = (access.perform sp s).2 := by
  cases i <;> cases h <;>
    exact ⟨_, rfl, rfl, fun sq => by cases sq <;> rfl, fun addr haddr => by cases haddr <;> rfl⟩

/-- Settles O46: without a fault the step has done stage E, which is the instruction's request if it makes one and no store
else. -/
theorem oneDataRequestIsTheMemoryEffect : Obligations.OneDataRequestIsTheMemoryEffect := by
  intro i s t h hfault
  obtain ⟨-, hb, -, hspace⟩ : (effectOf i s).SameData t := by
    rcases exec_fault_or_effect h with ⟨o, ho, -, rfl⟩ | ⟨-, hdata⟩
    · rw [State.record_outcome] at hfault
      exact absurd (ho.symm.trans hfault) nofun
    · exact hdata
  cases hrequest : dataRequest s i with
  | none => exact fun sp => (hspace sp).trans (effectOf_space (stores_of_dataRequest_none hrequest) s sp)
  | some request =>
    obtain ⟨code, access⟩ := request
    obtain ⟨sp, hcode, hmakes, hspaces, hread⟩ := effectOf_of_dataRequest hrequest
    exact ⟨_, _, portRequest_next hcode hmakes s, fun sq => (hspace sq).trans (hspaces sq),
      fun addr haddr => hb.trans (hread addr haddr)⟩

end Sys2Proof.Machine
end

section
/-! The obligation about the datapath (30_encoding.md section 5). -/

namespace Sys2Proof.Machine

/-! ## The control word of an instruction -/

theorem controlWord_len (i : Instr) : (controlWord i.opcode).len = 1 + i.arity := by
  cases i <;> rfl

theorem controlWord_out_known (i : Instr) : (controlWord i.opcode).out ≠ .unknownOp := by
  cases i <;> exact nofun

/-- The operand byte that the datapath's execute stage is given: the instruction's, and 0x00 if it has none. -/
def operandByteOf (i : Instr) : Byte := i.operand?.getD 0x00

theorem bNonZero_iff {s : State} : bNonZero s = true ↔ s.b ≠ 0x00 := bne_iff_ne

/-- jnz takes its operand to IP under a set condition, and else advances (R110, R182). -/
theorem execute_jnz (v : Byte) (s : State) :
    (controlWord (Instr.jnz v).opcode).execute v s =
      .next (if bNonZero s then s.transfer v else s.advance 1 .continue_) := rfl

/-- A control word that transfers control ends the step at its target (R110, R156). -/
theorem execute_transfer {i : Instr} {s : State} {target : Byte} (h : transferOf s i = some target) :
    (controlWord i.opcode).execute (operandByteOf i) s = .next (s.transfer target) := by
  cases i with
  | jmp v => cases h; rfl
  | jnz v =>
    rw [transferOf_jnz] at h
    split at h
    · cases h
    · cases h
      exact (execute_jnz _ s).trans (congrArg _ (if_pos (bNonZero_iff.mpr ‹_›)))
  | _ => cases h

/-- A control word that does not transfer control does stage E of its instruction, row by row of R110, and advances. -/
theorem execute_sequential {i : Instr} {s : State} (hmod : ¬ (i = .mod ∧ s.a = 0x00))
    (htransfer : transferOf s i = none) :
    (controlWord i.opcode).execute (operandByteOf i) s = .next ((effectOf i s).advance i.arity (reportOf i)) := by
  cases i with
  | jmp v => cases htransfer
  | jnz v =>
    rw [transferOf_jnz] at htransfer
    split at htransfer
    · exact (execute_jnz v s).trans (congrArg _ (if_neg (mt bNonZero_iff.mp (not_not_intro ‹_›))))
    · cases htransfer
  | mod => exact if_neg fun hzero => hmod ⟨rfl, hzero.2⟩
  | not =>
    have heffect : effectOf .not s = s.setB (~~~s.b) := congrArg s.setB (aluNot_eq s.b)
    rw [heffect]
    rfl
  | _ => rfl

/-- The execute stage under the control word of an instruction is the instruction's meaning. -/
theorem execute_eq_exec {i : Instr} {s : State} (h : s.ip.toNat + i.arity ≤ 255) :
    (controlWord i.opcode).execute (operandByteOf i) s = exec i s := by
  rw [exec_eq]
  by_cases hmod : i = .mod ∧ s.a = 0x00
  · obtain ⟨rfl, ha⟩ := hmod
    rw [if_pos ⟨rfl, ha⟩]
    exact if_pos ⟨rfl, ha⟩
  · rw [if_neg hmod]
    cases htransfer : transferOf s i with
    | some target =>
      rw [arity_of_transferOf htransfer] at h
      exact (execute_transfer htransfer).trans (if_pos (operandInBounds_iff.mpr h)).symm
    | none => exact (execute_sequential hmod htransfer).trans (runSequential_inBounds h).symm

/-! ## The step of the datapath -/

/-- The byte the datapath fetches as operand is that of the instruction at IP. -/
theorem State.At.operandByte {s : State} {i : Instr} (h : s.At i) :
    (if (controlWord i.opcode).len = 2 then memRead .prog (trunc8 (s.ip.toNat + 1)) s else 0x00) = operandByteOf i := by
  rw [controlWord_len, trunc8_toNat_add_one, operandByteOf]
  cases hv : i.operand? with
  | none => rw [arity_of_operand_none hv]; rfl
  | some v => rw [arity_of_operand_some hv, (h.2 v hv).2]; rfl

/-- A running datapath step over the opcode byte of an instruction checks its operand and executes its control word. -/
theorem datapathStep_of_opcode {s : State} {i : Instr} (hrun : s.halt = false) (hop : memRead .prog s.ip s = i.opcode) :
    datapathStep s =
      if operandInBounds i.arity s then
        (controlWord i.opcode).execute
          (if (controlWord i.opcode).len = 2 then memRead .prog (trunc8 (s.ip.toNat + 1)) s else 0x00) s
      else raise .argOutOfBounds s := by
  have hlen : (controlWord i.opcode).len - 1 = i.arity := by rw [controlWord_len, Nat.add_sub_cancel_left]
  simp only [datapathStep_running hrun, hop, if_neg (controlWord_out_known i), hlen]

/-- Settles O45: both steps stand still while halted, and for each thing a running step can do the datapath does it too. -/
theorem datapathIsTheStep : Obligations.DatapathIsTheStep := by
  intro s
  cases hrun : s.halt with
  | true => exact (if_pos hrun).trans (haltedStepChangesNothing s hrun).symm
  | false =>
    obtain ⟨t, h⟩ := everyStepAnswersANextState s
    rw [h]
    rcases step_running_cases hrun h with ⟨hop, rfl⟩ | ⟨hip, ⟨build, hrow⟩, rfl⟩ | ⟨i, hat, hexec⟩
    · simp only [datapathStep_running hrun, controlWord_unknown hop, if_true]
      rfl
    · obtain ⟨hop, hsome⟩ := decodeOpcode_hasId hrow 0x00
      have hbounds : ¬ operandInBounds (build 0x00).arity s = true := by
        rw [arity_of_operand_some hsome, operandInBounds_iff]
        omega
      rw [datapathStep_of_opcode hrun hop.symm, if_neg hbounds, raise]
    · have hbounds := hat.operand_inBounds
      rw [datapathStep_of_opcode hrun hat.1, if_pos (operandInBounds_iff.mpr hbounds), hat.operandByte,
        execute_eq_exec hbounds, hexec]

end Sys2Proof.Machine
end

section
/-! The obligations about the assembler (30_encoding.md section 6). -/

namespace Sys2Proof.Machine

/-! ## The size of the image -/

theorem emitByte_length {v : Byte} {st st' : AsmState} (h : emitByte v st = .ok st') : st'.bytes.length ≤ spaceSize := by
  unfold emitByte at h
  split at h
  · cases h
    rw [List.length_append]
    exact ‹_›
  · cases h

theorem emitOperand_length {operand : List Char} {st st' : AsmState} (h : emitOperand operand st = .ok st') :
    st'.bytes.length ≤ spaceSize := by
  unfold emitOperand at h
  split at h
  · cases h
  · split at h
    · exact emitByte_length h
    · split at h
      · cases h
      · exact emitByte_length h

theorem emitOperands_length {operands : List (List Char)} {st st' : AsmState} (hst : st.bytes.length ≤ spaceSize)
    (h : emitOperands operands st = .ok st') : st'.bytes.length ≤ spaceSize := by
  induction operands generalizing st with
  | nil => cases h; exact hst
  | cons operand rest ih =>
    unfold emitOperands at h
    split at h
    · cases h
    · exact ih (emitOperand_length ‹_›) h

theorem assembleLabel_length {name : List Char} {st st' : AsmState} (h : assembleLabel name st = .ok st') :
    st'.bytes.length ≤ spaceSize := by
  unfold assembleLabel at h
  split at h
  · cases h
  · split at h
    · cases h
      exact Nat.le_of_lt ‹_›
    · cases h

theorem assembleInstruction_length {mnemonic : List Char} {operands : List (List Char)} {st st' : AsmState}
    (h : assembleInstruction mnemonic operands st = .ok st') : st'.bytes.length ≤ spaceSize := by
  unfold assembleInstruction at h
  split at h
  · cases h
  · split at h
    · split at h
      · cases h
      · exact emitOperands_length (emitByte_length ‹_›) h
    · cases h

/-- Every line leaves at most 256 bytes emitted (R126). -/
theorem assembleLine_length {line : List Char} {st st' : AsmState} (hst : st.bytes.length ≤ spaceSize)
    (h : assembleLine line st = .ok st') : st'.bytes.length ≤ spaceSize := by
  unfold assembleLine at h
  split at h
  · cases h; exact hst
  · exact assembleLabel_length h
  · exact assembleInstruction_length h

theorem assembleLines_length {lines : List (List Char)} {st st' : AsmState} (hst : st.bytes.length ≤ spaceSize)
    (h : assembleLines lines st = .ok st') : st'.bytes.length ≤ spaceSize := by
  induction lines generalizing st with
  | nil => cases h; exact hst
  | cons line rest ih =>
    unfold assembleLines at h
    split at h
    · cases h
    · exact ih (assembleLine_length hst ‹_›) h

/-- Patching a reference puts a byte in the place of another (R127). -/
theorem patchRefs_length {labels : List (List Char × Byte)} {refs : List (Nat × List Char)} {bytes image : List Byte}
    (h : patchRefs labels refs bytes = .ok image) : image.length = bytes.length := by
  induction refs generalizing bytes with
  | nil => cases h; rfl
  | cons ref rest ih =>
    unfold patchRefs at h
    split at h
    · cases h
    · exact (ih h).trans List.length_set

theorem padImage_length {bytes : List Byte} (h : bytes.length ≤ spaceSize) : (padImage bytes).length = 256 := by
  rw [padImage, List.length_append, List.length_replicate]
  exact Nat.add_sub_cancel' h

/-- Settles O59: no line emits past 256 bytes, patching keeps their number, and padding fills up to 256. -/
theorem assembledImageIs256Bytes : Obligations.AssembledImageIs256Bytes := by
  intro source image h
  unfold assemble at h
  split at h
  · cases h
  · split at h
    · cases h
    · cases h
      have hlength := assembleLines_length (Nat.zero_le _) ‹_›
      exact padImage_length ((patchRefs_length ‹_›).trans_le hlength)

/-! ## Splitting, stripping and trimming a text -/

theorem splitAll_append {sep : Char} {line : List Char} (h : sep ∉ line) (rest : List Char) :
    splitAll sep (line ++ sep :: rest) = line :: splitAll sep rest := by
  induction line with
  | nil => exact if_pos rfl
  | cons c line ih =>
    obtain ⟨hc, hline⟩ := List.ne_and_not_mem_of_not_mem_cons h
    rw [List.cons_append, splitAll, if_neg (Ne.symm hc), ih hline]

theorem splitAll_of_not_mem {sep : Char} {line : List Char} (h : sep ∉ line) : splitAll sep line = [line] := by
  induction line with
  | nil => rfl
  | cons c line ih =>
    obtain ⟨hc, hline⟩ := List.ne_and_not_mem_of_not_mem_cons h
    rw [splitAll, if_neg (Ne.symm hc), ih hline]

theorem splitFirst_append {sep : Char} {word : List Char} (h : sep ∉ word) (rest : List Char) :
    splitFirst sep (word ++ sep :: rest) = (word, some rest) := by
  induction word with
  | nil => exact if_pos rfl
  | cons c word ih =>
    obtain ⟨hc, hword⟩ := List.ne_and_not_mem_of_not_mem_cons h
    rw [List.cons_append, splitFirst, if_neg (Ne.symm hc), ih hword]

theorem splitFirst_of_not_mem {sep : Char} {word : List Char} (h : sep ∉ word) : splitFirst sep word = (word, none) := by
  induction word with
  | nil => rfl
  | cons c word ih =>
    obtain ⟨hc, hword⟩ := List.ne_and_not_mem_of_not_mem_cons h
    rw [splitFirst, if_neg (Ne.symm hc), ih hword]

theorem stripComment_of_not_mem {line : List Char} (h : '/' ∉ line) : stripComment line = line := by
  induction line with
  | nil => rfl
  | cons c line ih =>
    obtain ⟨hc, hline⟩ := List.ne_and_not_mem_of_not_mem_cons h
    cases line with
    | nil => rfl
    | cons d rest => rw [stripComment, if_neg (fun hcd => hc hcd.1.symm), ih hline]

theorem dropWhile_isWhitespace_of_head {text : List Char} (h : ∀ c, text.head? = some c → c.isWhitespace = false) :
    text.dropWhile Char.isWhitespace = text := by
  cases text with
  | nil => rfl
  | cons c rest => exact List.dropWhile_cons_of_neg (by simp [h c rfl])

/-- A text whose ends are no white space is trimmed already (R121). -/
theorem trim_of_ends {text : List Char} (hhead : ∀ c, text.head? = some c → c.isWhitespace = false)
    (hlast : ∀ c, text.getLast? = some c → c.isWhitespace = false) : trim text = text := by
  have hrev : ∀ c, text.reverse.head? = some c → c.isWhitespace = false := List.head?_reverse.symm ▸ hlast
  rw [trim, dropWhile_isWhitespace_of_head hhead, dropWhile_isWhitespace_of_head hrev, List.reverse_reverse]

/-! ## The characters of a source line -/

theorem isLower_of_mem_mnemonicOf {i : Instr} {c : Char} (h : c ∈ mnemonicOf i) : c.isLower = true := by
  have hall : (mnemonicOf i).all Char.isLower = true := by cases i <;> rfl
  exact List.all_eq_true.mp hall c h

theorem mnemonicOf_ne_nil (i : Instr) : mnemonicOf i ≠ [] := by
  cases i <;> exact nofun

/-- The decimal text of a byte. -/
def decimalText (v : Byte) : List Char := Nat.toDigits 10 v.toNat

theorem isDigit_of_mem_decimalText {v : Byte} {c : Char} (h : c ∈ decimalText v) : c.isDigit = true :=
  Nat.isDigit_of_mem_toDigits (by decide) (by decide) h

theorem decimalText_ne_nil (v : Byte) : decimalText v ≠ [] := Nat.toDigits_ne_nil

theorem decimalValue_decimalText (v : Byte) : decimalValue (decimalText v) = v.toNat :=
  Nat.ofDigitChars_toDigits (by decide) (by decide)

theorem sourceLine_of_operand_none {i : Instr} (h : i.operand? = none) : Claim.sourceLine i = mnemonicOf i := by
  simp [Claim.sourceLine, h]

theorem sourceLine_of_operand_some {i : Instr} {v : Byte} (h : i.operand? = some v) :
    Claim.sourceLine i = mnemonicOf i ++ ' ' :: decimalText v := by
  simp [Claim.sourceLine, h, decimalText]

/-- A letter of a mnemonic or a digit is no white space. -/
theorem isWhitespace_of_letter_or_digit {c : Char} (h : c.isLower = true ∨ c.isDigit = true) :
    c.isWhitespace = false := by
  rw [Bool.eq_false_iff]
  intro hspace
  simp only [Char.isWhitespace, Bool.or_eq_true, decide_eq_true_eq] at hspace
  rcases hspace with ((rfl | rfl) | rfl) | rfl <;> rcases h with h | h <;> cases h

/-- A source line is made of letters, digits and the space. -/
theorem mem_sourceLine {i : Instr} {c : Char} (h : c ∈ Claim.sourceLine i) :
    c.isLower = true ∨ c.isDigit = true ∨ c = ' ' := by
  cases hv : i.operand? with
  | none =>
    rw [sourceLine_of_operand_none hv] at h
    exact .inl (isLower_of_mem_mnemonicOf h)
  | some v =>
    rw [sourceLine_of_operand_some hv, List.mem_append, List.mem_cons] at h
    rcases h with h | h | h
    · exact .inl (isLower_of_mem_mnemonicOf h)
    · exact .inr (.inr h)
    · exact .inr (.inl (isDigit_of_mem_decimalText h))

theorem head_sourceLine {i : Instr} {c : Char} (h : (Claim.sourceLine i).head? = some c) : c.isLower = true := by
  obtain ⟨d, word, hword⟩ := List.exists_cons_of_ne_nil (mnemonicOf_ne_nil i)
  rw [Claim.sourceLine, hword] at h
  obtain rfl : d = c := Option.some.inj h
  exact isLower_of_mem_mnemonicOf (hword ▸ List.mem_cons_self)

theorem getLast_sourceLine {i : Instr} {c : Char} (h : (Claim.sourceLine i).getLast? = some c) :
    c.isLower = true ∨ c.isDigit = true := by
  cases hv : i.operand? with
  | none =>
    rw [sourceLine_of_operand_none hv] at h
    exact .inl (isLower_of_mem_mnemonicOf (List.mem_of_getLast? h))
  | some v =>
    rw [sourceLine_of_operand_some hv, List.getLast?_append_cons, List.getLast?_cons_of_ne_nil (decimalText_ne_nil v)] at h
    exact .inr (isDigit_of_mem_decimalText (List.mem_of_getLast? h))

theorem preprocess_sourceLine (i : Instr) : preprocess (Claim.sourceLine i) = Claim.sourceLine i := by
  have hslash : '/' ∉ Claim.sourceLine i := fun h => absurd (mem_sourceLine h) (by decide)
  rw [preprocess, stripComment_of_not_mem hslash]
  exact trim_of_ends (fun c hc => isWhitespace_of_letter_or_digit (.inl (head_sourceLine hc)))
    fun c hc => isWhitespace_of_letter_or_digit (getLast_sourceLine hc)

/-! ## Reading a source line -/

/-- The operand texts of an instruction. -/
def operandTexts (i : Instr) : List (List Char) := i.operand?.toList.map decimalText

theorem readInstructionLine_sourceLine (i : Instr) :
    readInstructionLine (Claim.sourceLine i) = .instruction (mnemonicOf i) (operandTexts i) := by
  have hspace : ' ' ∉ mnemonicOf i := fun h => absurd (isLower_of_mem_mnemonicOf h) (by decide)
  unfold readInstructionLine operandTexts
  cases hv : i.operand? with
  | none => rw [sourceLine_of_operand_none hv, splitFirst_of_not_mem hspace]; rfl
  | some v =>
    have hcomma : ',' ∉ decimalText v := fun h => absurd (isDigit_of_mem_decimalText h) (by decide)
    simp [sourceLine_of_operand_some hv, splitFirst_append hspace, splitAll_of_not_mem hcomma]

theorem readLine_sourceLine (i : Instr) :
    readLine (Claim.sourceLine i) = .instruction (mnemonicOf i) (operandTexts i) := by
  obtain ⟨c, rest, hline⟩ : ∃ c rest, Claim.sourceLine i = c :: rest :=
    List.exists_cons_of_ne_nil fun h => mnemonicOf_ne_nil i (List.append_eq_nil_iff.mp h).1
  have hmarker : c ≠ labelMarker := by
    rintro rfl
    exact absurd (head_sourceLine (i := i) (by rw [hline]; rfl)) (by decide)
  rw [← readInstructionLine_sourceLine, hline, readLine, if_neg fun h => hmarker h.1]

theorem readLiteral_decimalText (v : Byte) : readLiteral (decimalText v) = some v := by
  have hdigits : (decimalText v).all Char.isDigit = true :=
    List.all_eq_true.mpr fun c => isDigit_of_mem_decimalText
  have hlt := v.isLt
  have hle : v.toNat ≤ 255 := by omega
  simp [readLiteral, hdigits, decimalText_ne_nil, decimalValue_decimalText, hle]

/-! ## Emitting an instruction -/

theorem emitByte_ok {v : Byte} {st : AsmState} (h : st.bytes.length < spaceSize) :
    emitByte v st = .ok { st with bytes := st.bytes ++ [v] } := if_pos h

theorem emitOperand_decimalText (v : Byte) (st : AsmState) : emitOperand (decimalText v) st = emitByte v st := by
  obtain ⟨c, rest, htext⟩ := List.exists_cons_of_ne_nil (decimalText_ne_nil v)
  have hmarker : c ≠ labelMarker := by
    rintro rfl
    exact absurd (isDigit_of_mem_decimalText (v := v) (by rw [htext]; exact List.mem_cons_self)) (by decide)
  rw [htext, emitOperand, if_neg hmarker, ← htext, readLiteral_decimalText]

theorem arityOfOpcode_opcode (i : Instr) : arityOfOpcode i.opcode = (operandTexts i).length := by
  cases i <;> rfl

/-- The operands of an instruction are emitted as its operand byte, if it has one. -/
theorem emitOperands_operandTexts {i : Instr} {st : AsmState}
    (h : st.bytes.length + i.operand?.toList.length ≤ spaceSize) :
    emitOperands (operandTexts i) st = .ok { st with bytes := st.bytes ++ i.operand?.toList } := by
  cases hv : i.operand? with
  | none => simp [operandTexts, hv, emitOperands]
  | some v =>
    rw [hv] at h
    simp [operandTexts, hv, emitOperands, emitOperand_decimalText, emitByte_ok (v := v) h]

/-- The line of an instruction emits its encoding where it fits (R124, R125). -/
theorem assembleLine_sourceLine {i : Instr} {st : AsmState} (h : st.bytes.length + (encode i).length ≤ spaceSize) :
    assembleLine (Claim.sourceLine i) st = .ok { st with bytes := st.bytes ++ encode i } := by
  rw [encode, List.length_cons] at h
  have hoperands := emitOperands_operandTexts (i := i) (st := { st with bytes := st.bytes ++ [i.opcode] })
    (by rw [List.length_append, List.length_singleton]; omega)
  have hlookup : opcodeOfMnemonic (mnemonicOf i) = some i.opcode := (mnemonicsRoundTrip i).1
  simp only [assembleLine, preprocess_sourceLine, readLine_sourceLine, assembleInstruction, hlookup,
    arityOfOpcode_opcode, if_true, emitByte_ok (show st.bytes.length < spaceSize by omega), hoperands]
  rw [List.append_assoc]
  rfl

/-! ## Assembling a source text -/

theorem splitAll_sourceText (is : List Instr) :
    splitAll '\n' (Claim.sourceText is) = is.map Claim.sourceLine ++ [[]] := by
  induction is with
  | nil => rfl
  | cons i is ih =>
    have hfeed : '\n' ∉ Claim.sourceLine i := fun h => absurd (mem_sourceLine h) (by decide)
    have htext : Claim.sourceText (i :: is) = Claim.sourceLine i ++ '\n' :: Claim.sourceText is := by
      simp [Claim.sourceText]
    rw [htext, splitAll_append hfeed, ih]
    rfl

/-- The lines of instructions that fit emit their encodings one after another. -/
theorem assembleLines_sourceLines {is : List Instr} {st : AsmState}
    (h : st.bytes.length + (encodeAll is).length ≤ spaceSize) :
    assembleLines (is.map Claim.sourceLine ++ [[]]) st = .ok { st with bytes := st.bytes ++ encodeAll is } := by
  induction is generalizing st with
  | nil => simp [assembleLines, assembleLine, preprocess, stripComment, trim, readLine]
  | cons i is ih =>
    rw [encodeAll_cons, List.length_append] at h
    have hrest := ih (st := { st with bytes := st.bytes ++ encode i }) (by rw [List.length_append]; omega)
    simp only [List.map_cons, List.cons_append, assembleLines,
      assembleLine_sourceLine (show st.bytes.length + (encode i).length ≤ spaceSize by omega), hrest, encodeAll_cons,
      List.append_assoc]

/-- Settles O60: the text splits into the lines of its instructions, each of which emits its encoding, and without
references nothing is patched. -/
theorem sourceTextAssemblesToItsEncoding : Obligations.SourceTextAssemblesToItsEncoding := by
  intro is hfits
  have hlines := assembleLines_sourceLines (is := is) (st := AsmState.start) ((Nat.zero_add _).trans_le hfits)
  simp only [assemble, splitAll_sourceText, hlines]
  rfl

end Sys2Proof.Machine
end
